-- ==== Sys2Proof/Word.lean ====
section
/-! DEFINITION. The word types of the block: the widths that its registers, its memory port and its
command word have (spec/10_state.md R21, R22). -/

namespace Sys2Proof

/-- A byte of the byte memory `M` (R21). -/
abbrev Byte := BitVec 8

/-- A 32-bit register or command word as the host bus carries it (R22, R70). -/
abbrev Word := BitVec 32

/-- The 64-bit registers `DATA` and `RESULT` (R22). -/
abbrev DWord := BitVec 64

end Sys2Proof
end

