-- ==== Sys2Proof/Config.lean ====
section
/-! DEFINITION. What an implementation fixes (the parameters of spec/00_scope.md R7) and the free
values of spec/93_implementation_defined.md: constants with no body, so that no proof can lean on a
value of theirs. -/

namespace Sys2Proof

/-- The parameters of R7 and of 93 section 2 that a run depends on. They are carried in the state as
data no step writes (log 1), so that a statement about every state is about every setting. -/
structure Params where
  /-- `MEM_BYTES`, the size of `M` in bytes: OPEN, at most `2^32 - 1`. -/
  memBytes : Nat
  /-- `MEM_PORT_FAULTS`, whether a block access of `M` can fail: OPEN. -/
  memPortFaults : Bool
  /-- `STRICT_VALUE`, whether `WRBITS` rejects a value wider than its width: false for this hardware. -/
  strictValue : Bool
  /-- `REG_BASE`, the bus address of the register window (D3): OPEN. -/
  regBase : Nat
deriving DecidableEq, Repr

/-- `STRICT_VALUE` of this hardware (R7). -/
def Config.strictValue : Bool := false

/-- The largest value R7 admits for `MEM_BYTES`. -/
abbrev Config.maxMemBytes : Nat := 2 ^ 32 - 1

/-- The widest field `RDBITS` and `WRBITS` move (R7, R72). -/
abbrev Config.maxFieldWidth : Nat := 64

/-- The size in bytes of the checksum slot (R7, R50). -/
abbrev Config.slotBytes : Nat := 4

/-- The size in bytes of the register window (R60). -/
abbrev Config.windowBytes : Nat := 256

/-- The parameters `State.reset` starts from. DESIGN CHOICE, unsafe (log 1, log 2): the spec leaves
`MEM_BYTES`, `MEM_PORT_FAULTS` and `REG_BASE` open; no statement rests on these values. -/
def Params.default : Params :=
  ⟨Config.maxMemBytes, false, Config.strictValue, 0⟩

/-- `MAGIC`, a constant of host programs that the block never checks (R7, R62; 90_conflicts.md C1). -/
def Config.magic : Word := 0x524B4744#32

/-- U1: whether access `k` of a command fails, for the draw `n` the command takes. Free value. -/
opaque Config.accessFails (n k : Nat) : Bool

/-- U2: whether byte `k` of a failed or aborted store holds its new value afterwards (`true`) or its
old one (`false`), for the draw `n`. Free value. -/
opaque Config.byteLanded (n k : Nat) : Bool

/-- U3: what `CRC` holds after a `CRCCOMP` that ended in `IO_ERROR`, for the draw `n`. Free value. -/
opaque Config.crcAfterIoError (n : Nat) : Word

/-- U4: what a host read of `RESULT_LO`, `RESULT_HI` or `CRC` returns while the block is busy, for
the draw `n`. Free value. -/
opaque Config.busyRead (n : Nat) : Word

/-- U5: what byte `a` of `M` holds at power-on. Free value. -/
opaque Config.powerOnByte (a : Nat) : Byte

/-- The draws one command takes from its environment: which accesses fail (U1), which bytes of a
failed store land (U2), what a failed `CRCCOMP` leaves in `CRC` (U3). The meanings take them as an
argument, so that what they do is stated for every draw. -/
structure PortDraws where
  fails : Nat → Bool
  landed : Nat → Bool
  crc : Word

/-- The draws number `n`: nothing is known of them. -/
def Config.portDraws (n : Nat) : PortDraws :=
  ⟨Config.accessFails n, Config.byteLanded n, Config.crcAfterIoError n⟩

end Sys2Proof
end

