-- ==== Sys2Proof/Machine/State.lean ====
section
/-! DEFINITION. The state of the block and of the world it is attached to, as plain data
(spec/10_state.md R21 to R41), and the reasons a step can stop. -/

namespace Sys2Proof.Machine

/-- The status code of a completed command (spec/60_exceptions.md R150). The codes 6 to 15 are never
produced, so they have no constructor (log 22). -/
inductive Status where
  /-- 0: the command completed its rule. -/
  | ok
  /-- 1: the bit span exceeds the stream. -/
  | outOfRange
  /-- 2: the stream is shorter than the checksum slot. -/
  | tooSmall
  /-- 3: a block access of `M` failed. -/
  | ioError
  /-- 4: the command word does not decode. -/
  | illegal
  /-- 5: `DATA` is wider than the field, in strict mode. -/
  | valueRange
deriving DecidableEq, Repr

/-- What the outside world does next: a host access (R30), a reset (R180) or a turn left to the block
(R20, R32). The order of `State.inputs` is the interleaving of the agents (log 5). -/
inductive Input where
  /-- A host bus write of `bytes` bytes at the bus address `addr`. -/
  | write (addr bytes : Nat) (v : Word)
  /-- A host bus read of `bytes` bytes at the bus address `addr`. -/
  | read (addr bytes : Nat)
  /-- A host write of byte `a` of `M` (R81). -/
  | poke (a : Nat) (b : Byte)
  /-- A host read of byte `a` of `M` (R81). -/
  | peek (a : Nat)
  /-- The platform asserts reset. -/
  | reset
  /-- The block may take its one step, the completion of a pending command. -/
  | block
deriving DecidableEq, Repr

/-- The byte memory `M`: the bytes something has written since power-on, addresses strictly rising.
An unlisted byte has no value here; what it reads as is the free value `Config.powerOnByte` (log 3). -/
abbrev Memory := List Host.Cell

/-- The state. The first ten fields are the tuple of R41; the last four are the model's own. -/
structure State where
  /-- `M` (R21). -/
  mem : Memory
  /-- `OFFSET` (R23). -/
  offset : Word
  /-- `LEN` (R25). -/
  len : Word
  /-- `DATA`, the halves `DATA_HI:DATA_LO` (R26). -/
  data : DWord
  /-- `RESULT`, the halves `RESULT_HI:RESULT_LO` (R27). -/
  result : DWord
  /-- `CRC`, the running CRC (R28). -/
  crc : Word
  /-- `STATUS.BUSY` (R33). -/
  busy : Bool
  /-- `STATUS.DONE` (R33). -/
  done : Bool
  /-- `STATUS.ERR` (R33, R150). -/
  err : Status
  /-- `PEND`, the hidden command word, meaningful only while busy (R38); what it holds while idle is the
  model's choice (U8, log 4). -/
  pend : Word
  /-- The parameters of R7, which no step writes (log 1). -/
  params : Params
  /-- What the outside world still does, oldest first (log 5). -/
  inputs : List Input
  /-- What the host's last register read or `PEEK` returned (log 6). -/
  busData : Word
  /-- How many draws of free values have been taken (log 7). -/
  draws : Nat
deriving DecidableEq, Repr

/-- Why the machine stops with a fault. -/
inductive Fault where
  /-- Raised by a host `POKE` or `PEEK` of a byte at or above `MEM_BYTES`, which does not exist (R21;
  log 12). Safe: the spec gives such an access no effect. -/
  | noSuchByte (a : Nat)
deriving DecidableEq, Repr

/-- Why the machine gives no meaning to what the outside world did. -/
inductive Refusal where
  /-- Raised by an arm of `exec` whose command has no meaning yet. Safe. No arm raises it. -/
  | notModelled (mnemonic : String)
  /-- Raised by a host `POKE` or `PEEK` while the block is busy (R30, R190, U6: "refuse"). Safe. -/
  | hostMemoryWhileBusy
  /-- Raised by a host register access that is not an aligned 32-bit word access (R30, U7: "refuse").
  Safe. -/
  | notAlignedWord
  /-- Raised by a host bus access outside the 256 bytes of the register window (R60): it is no access
  of the block (log 11). Safe. -/
  | outsideWindow
deriving DecidableEq, Repr

/-- The block at power-on with the parameters `p` and the memory contents `m`: the registers of R40,
no command pending, nothing to do. `PEND` is unspecified by R40 and held at 0, as U8 allows (log 4);
`busData` and `draws` are the model's own (log 6, log 7). -/
def State.powerOn (p : Params) (m : Memory) : State where
  mem := m
  offset := 0x00000000#32
  len := 0x00000000#32
  data := 0x0000000000000000#64
  result := 0x0000000000000000#64
  crc := 0xFFFFFFFF#32
  busy := false
  done := false
  err := .ok
  pend := 0x00000000#32
  params := p
  inputs := []
  busData := 0x00000000#32
  draws := 0

/-- The machine right after reset: power-on with the parameters of `Params.default` and no byte of
`M` written (R40, R180, R181; log 1, log 3). -/
def State.reset : State := State.powerOn Params.default []

end Sys2Proof.Machine
end

