-- ==== Sys2Proof/Machine/Ops.lean ====
section
/-! DEFINITION. The named operations over memory, registers and the memory port, and the one way a
command ends: completion with a status code, which is all that "an exception" is on this hardware
(spec/60_exceptions.md R151, R159, R160). -/

namespace Sys2Proof.Machine

/-! ### Memory (R21, R59) -/

/-- The byte listed at `a`, if something has written it. -/
def Memory.lookup : Memory → Nat → Option Byte
  | [], _ => none
  | (k, v) :: rest, a => if k = a then some v else Memory.lookup rest a

/-- Byte `a` of `M`: the byte last written (R59), or the unknown byte it held at power-on (U5). -/
def Memory.read (m : Memory) (a : Nat) : Byte :=
  (m.lookup a).getD (Config.powerOnByte a)

/-- `M` with `b` written to byte `a`, the addresses kept rising. -/
def Memory.store : Memory → Nat → Byte → Memory
  | [], a, b => [(a, b)]
  | (k, v) :: rest, a, b =>
    if a < k then (a, b) :: (k, v) :: rest
    else if a = k then (a, b) :: rest
    else (k, v) :: Memory.store rest a b

/-- Every address listed is above `a`. -/
def Memory.above (a : Nat) : Memory → Bool
  | [] => true
  | (k, _) :: rest => decide (a < k) && Memory.above a rest

/-- The canonical form: addresses strictly rising. An unlisted byte has no value, so no entry can
equal what an unlisted address holds (log 3). -/
def Memory.wf : Memory → Bool
  | [] => true
  | (k, _) :: rest => Memory.above k rest && Memory.wf rest

/-- Every address listed is below `n`: the bytes exist (R21). -/
def Memory.below (n : Nat) : Memory → Bool
  | [] => true
  | (k, _) :: rest => decide (k < n) && Memory.below n rest

/-- Store `bytes` from address `a` up, byte number `k` and on, those that `land` lets land: all of
them in a store that succeeds, some of them in one that fails or is aborted (R107, R134, U2). -/
def Memory.storeSome (land : Nat → Bool) (m : Memory) (a k : Nat) : List Byte → Memory
  | [] => m
  | b :: rest => Memory.storeSome land (if land k then m.store (a + k) b else m) a (k + 1) rest

/-- Every byte of a store lands. -/
def allLand (_ : Nat) : Bool := true

/-- The `n` bytes from address `a` up, `MemRead(a + k, 1)` for `k` from 0 (R13, R101). -/
def Memory.readSpan (m : Memory) (a n : Nat) : List Byte :=
  (List.range n).map fun k => m.read (a + k)

/-! ### Updates of the state -/

def State.withMem (s : State) (m : Memory) : State := { s with mem := m }
def State.withOffset (s : State) (v : Word) : State := { s with offset := v }
def State.withLen (s : State) (v : Word) : State := { s with len := v }
def State.withData (s : State) (v : DWord) : State := { s with data := v }
def State.withResult (s : State) (v : DWord) : State := { s with result := v }
def State.withCrc (s : State) (v : Word) : State := { s with crc := v }
def State.withInputs (s : State) (l : List Input) : State := { s with inputs := l }
def State.withBusData (s : State) (v : Word) : State := { s with busData := v }

/-- One more draw of free values has been taken (log 7). -/
def State.nextDraw (s : State) : State := { s with draws := s.draws + 1 }

/-! ### The command lifecycle (R31, R32) -/

/-- Issue of the command word `w` (R31). -/
def State.issue (s : State) (w : Word) : State :=
  { s with pend := w, busy := true, done := false, err := .ok }

/-- Completion with the status code `c` (R32): `BUSY <- 0`, `DONE <- 1`, `ERR <- c`. This is the one
shared operation by which a command ends, `complete` and `raise c` of R13 alike; an error saves no
state and goes nowhere (R151). The draws a command takes are used up (log 7). `PEND` keeps the word of
the command that has completed: DESIGN CHOICE, as U8 gives it any value while idle (log 4). -/
def State.complete (s : State) (c : Status) : State :=
  { s with busy := false, done := true, err := c, draws := s.draws + 1 }

/-- The value a command returns, and completion with `OK` (R27). -/
def State.returning (s : State) (v : DWord) : State := (s.withResult v).complete .ok

/-! ### The memory port (R56, R152) -/

/-- Does one of the accesses numbered `first` to `first + n - 1` of the command fail (R152)? Never
when `MEM_PORT_FAULTS = false`. -/
def State.portFails (s : State) (d : PortDraws) (first n : Nat) : Bool :=
  s.params.memPortFaults && (List.range n).any fun k => d.fails (first + k)

/-- Write `bytes` from address `a` up and complete: with `OK`, or, when one of these accesses
(numbered from `first`) fails, with `IO_ERROR` and each byte old or new (R107, R134, U2; log 9). -/
def State.storing (s : State) (d : PortDraws) (first a : Nat) (bytes : List Byte) : State :=
  if s.portFails d first bytes.length then
    (s.withMem (s.mem.storeSome d.landed a 0 bytes)).complete .ioError
  else
    (s.withMem (s.mem.storeSome allLand a 0 bytes)).complete .ok

end Sys2Proof.Machine
end

