-- ==== Sys2Proof/Machine/Operands.lean ====
section
/-! DEFINITION. Every operand form of the commands: the stream and its bits (spec/00_scope.md R10,
R11; spec/20_memory.md R50), a field's range and span (spec/40_bit_access.md R100), the bits of a
span held in a buffer (R101, R103), and the parts of `DATA` (spec/30_encoding.md R77). Offsets,
widths and positions are exact natural numbers (R12). -/

namespace Sys2Proof.Machine

/-! ### Bits of the stream -/

/-- `StreamBit(p) = M[p div 8][7 - (p mod 8)]` (R10). -/
def Memory.streamBit (m : Memory) (p : Nat) : Bool :=
  (m.read (p / 8)).getLsbD (7 - p % 8)

/-- The length of the stream in bits (R50). -/
def State.streamBits (s : State) : Nat := 8 * s.len.toNat

/-- The field of `w` bits at bit `off` lies in the stream (R100). -/
abbrev State.InRange (s : State) (off w : Nat) : Prop := off + w ≤ s.streamBits

/-- The first byte of a field's span (R100). -/
def spanFirst (off : Nat) : Nat := off / 8

/-- The position of a field's first bit in its span (R101). -/
def spanShift (off : Nat) : Nat := off % 8

/-- The number of bytes of a field's span (R100). -/
def spanBytes (off w : Nat) : Nat := (off % 8 + w + 7) / 8

/-! ### Bits of a buffer -/

/-- Bit `q` of a buffer, `buf[q div 8][7 - (q mod 8)]` (R101). -/
def bufBit (buf : List Byte) (q : Nat) : Bool :=
  (buf.getD (q / 8) 0#8).getLsbD (7 - q % 8)

/-- The `w` bits of a buffer from bit `r` up as a number, the first the most significant: the loop of
R101, `v = (v << 1) | bit`. -/
def fieldOfBuf (buf : List Byte) (r w : Nat) : DWord :=
  (List.range w).foldl
    (fun v i => (v <<< 1) ||| (BitVec.ofBool (bufBit buf (r + i))).setWidth 64) 0#64

/-- A byte with bit `j` cleared, then set from `v` (R103). -/
def setByteBit (b : Byte) (j : Nat) (v : Bool) : Byte :=
  (b &&& ~~~ (1#8 <<< j)) ||| ((BitVec.ofBool v).setWidth 8 <<< j)

/-- A buffer with bit `q` set to `v` (R103). -/
def setBufBit (buf : List Byte) (q : Nat) (v : Bool) : List Byte :=
  buf.modify (q / 8) fun b => setByteBit b (7 - q % 8) v

/-- A buffer with its `w` bits from bit `r` up replaced by the low `w` bits of `val`, most significant
first: the loop of R103. -/
def mergeBuf (buf : List Byte) (r w : Nat) (val : DWord) : List Byte :=
  (List.range w).foldl (fun bf i => setBufBit bf (r + i) (val.getLsbD (w - 1 - i))) buf

/-- `trunc_w(v) = v mod 2^w` (R12). -/
def truncTo (w : Nat) (v : DWord) : DWord := BitVec.ofNat 64 (v.toNat % 2 ^ w)

/-! ### The fields the commands address -/

/-- The bytes of the span of the field of `w` bits at bit `off`. -/
def State.span (s : State) (off w : Nat) : List Byte :=
  s.mem.readSpan (spanFirst off) (spanBytes off w)

/-- The value of the field of `w` bits at bit `off` (R101). -/
def State.field (s : State) (off w : Nat) : DWord :=
  fieldOfBuf (s.span off w) (spanShift off) w

/-- The span of the field of `w` bits at bit `off` with `DATA` merged into it (R103, R105). -/
def State.merged (s : State) (off w : Nat) : List Byte :=
  mergeBuf (s.span off w) (spanShift off) w (truncTo w s.data)

/-- `OFFSET` as a natural number (R76). -/
def State.off (s : State) : Nat := s.offset.toNat

/-- `DATA` does not fit in `w` bits (R105). -/
abbrev State.ValueTooWide (s : State) (w : Nat) : Prop := w < 64 ∧ 2 ^ w ≤ s.data.toNat

/-- `DATA[7:0]`, the byte of `CRCBYTE` and the index of `TBLRD` (R77). -/
def State.dataByte (s : State) : Byte := s.data.setWidth 8

/-- `DATA[31:0]`, the value of `CRCSTORE` (R77). -/
def State.dataWord (s : State) : Word := s.data.setWidth 32

/-- A 64-bit register with its low half replaced (R26, D13). -/
def setLowHalf (d : DWord) (v : Word) : DWord := ((d >>> 32) <<< 32) ||| v.setWidth 64

/-- A 64-bit register with its high half replaced (R26, D13). -/
def setHighHalf (d : DWord) (v : Word) : DWord :=
  (v.setWidth 64 <<< 32) ||| (d.setWidth 32).setWidth 64

/-- The stream holds a checksum slot: `LEN` is at least 4 (R131, R133). -/
abbrev State.HasSlot (s : State) : Prop := Config.slotBytes ≤ s.len.toNat

/-- The address of the checksum slot, `LEN - 4` (R50). -/
def State.slot (s : State) : Nat := s.len.toNat - Config.slotBytes

/-- The four bytes of a word, most significant first (R51, R133). -/
def bytesOfWord (v : Word) : List Byte :=
  [v.extractLsb' 24 8, v.extractLsb' 16 8, v.extractLsb' 8 8, v.extractLsb' 0 8]

/-- Four bytes as a big-endian number (R108). -/
def wordOfBytes (b0 b1 b2 b3 : Byte) : DWord :=
  (b0.setWidth 64 <<< 24) ||| (b1.setWidth 64 <<< 16) ||| (b2.setWidth 64 <<< 8) ||| b3.setWidth 64

end Sys2Proof.Machine
end

