-- ==== Sys2Proof/Machine/BitAccess.lean ====
section
/-! DEFINITION. The bit accessor commands `RDBITS`, `WRBITS`, `RDU32` (spec/40_bit_access.md). Each
takes the draws of its memory accesses as an argument; the `exec` form supplies the next draws. -/

namespace Sys2Proof.Machine

/-- `RDBITS w` (R101, R102): bounds, then the span's reads, then the value. -/
def rdbits (d : PortDraws) (w : Nat) (s : State) : State :=
  if s.InRange s.off w then
    if s.portFails d 0 (spanBytes s.off w) then s.complete .ioError
    else s.returning (s.field s.off w)
  else s.complete .outOfRange

/-- `WRBITS w` (R103 to R107): width 0 does nothing at all; then bounds, then, in strict mode, the
value; then the span's reads (accesses 0 to `n - 1`), a failure of which ends the command before any
write (R152; log 8); then its writes (accesses `n` to `2n - 1`). -/
def wrbits (d : PortDraws) (w : Nat) (s : State) : State :=
  if w = 0 then s.complete .ok
  else if s.InRange s.off w then
    if s.params.strictValue = true ∧ s.ValueTooWide w then s.complete .valueRange
    else if s.portFails d 0 (spanBytes s.off w) then s.complete .ioError
    else s.storing d (spanBytes s.off w) (spanFirst s.off) (s.merged s.off w)
  else s.complete .outOfRange

/-- `RDU32` (R108, R109, R102): `OFFSET` is a byte offset, and `8 * OFFSET` does not wrap. -/
def rdu32 (d : PortDraws) (s : State) : State :=
  if s.InRange (8 * s.off) 32 then
    if s.portFails d 0 4 then s.complete .ioError
    else
      s.returning (wordOfBytes (s.mem.read s.off) (s.mem.read (s.off + 1))
        (s.mem.read (s.off + 2)) (s.mem.read (s.off + 3)))
  else s.complete .outOfRange

/-- The meaning of `RDBITS`. -/
def execRdbits (w : Nat) (s : State) : Host.Outcome State Fault Refusal :=
  .next (rdbits (Config.portDraws s.draws) w s)

/-- The meaning of `WRBITS`. -/
def execWrbits (w : Nat) (s : State) : Host.Outcome State Fault Refusal :=
  .next (wrbits (Config.portDraws s.draws) w s)

/-- The meaning of `RDU32`. -/
def execRdu32 (s : State) : Host.Outcome State Fault Refusal :=
  .next (rdu32 (Config.portDraws s.draws) s)

end Sys2Proof.Machine
end

