-- ==== Sys2Proof/Machine/Crc.lean ====
section
/-! DEFINITION. The CRC-32 function: the table, the fold of one byte, the CRC of a sequence
(spec/41_checksum.md R120 to R122). -/

namespace Sys2Proof.Machine

/-- The reflected polynomial 0xEDB88320 (R2, R120). -/
def crcPoly : Word := 0xEDB88320#32

/-- The initial value and the final exclusive or, 0xFFFFFFFF (R2, R122). -/
def crcOnes : Word := 0xFFFFFFFF#32

/-- One round: `c = (c & 1) ? (poly ^ (c >> 1)) : (c >> 1)` (R120). -/
def crcRound (c : Word) : Word :=
  if c.getLsbD 0 then crcPoly ^^^ (c >>> 1) else c >>> 1

/-- `k` rounds. -/
def crcRounds : Nat → Word → Word
  | 0, c => c
  | k + 1, c => crcRounds k (crcRound c)

/-- Entry `n` of the table ROM `T`: 8 rounds from `n` (R37, R120). -/
def crcTable (n : Byte) : Word := crcRounds 8 (n.setWidth 32)

/-- `Fold(c, b) = T[(c ^ b) & 0xFF] ^ (c >> 8)` (R121; PRESUMED by the spec itself, G1, log 15). -/
def crcFold (c : Word) (b : Byte) : Word :=
  crcTable ((c ^^^ b.setWidth 32).setWidth 8) ^^^ (c >>> 8)

/-- The running CRC after folding a sequence of bytes, oldest first (R122). -/
def crcFoldAll (c : Word) (bytes : List Byte) : Word := bytes.foldl crcFold c

/-- The CRC-32 of a sequence of bytes (R122). -/
def crc32 (bytes : List Byte) : Word := crcFoldAll crcOnes bytes ^^^ crcOnes

end Sys2Proof.Machine
end

