-- ==== Sys2Proof/Machine/Checksum.lean ====
section
/-! DEFINITION. The checksum engine commands `CRCINIT`, `CRCBYTE`, `CRCFINAL`, `CRCCOMP`, `CRCSTORE`,
`TBLRD` (spec/41_checksum.md). -/

namespace Sys2Proof.Machine

/-- The running CRC of the stream bytes `M[0] .. M[LEN - 5]` (R131). -/
def State.streamCrc (s : State) : Word := crcFoldAll crcOnes (s.mem.readSpan 0 s.slot)

/-- `CRCCOMP` (R131, R132): `LEN - 4` reads; a failed one leaves any value in `CRC`. -/
def crccomp (d : PortDraws) (s : State) : State :=
  if s.HasSlot then
    if s.portFails d 0 s.slot then (s.withCrc d.crc).complete .ioError
    else (s.withCrc s.streamCrc).returning ((s.streamCrc ^^^ crcOnes).setWidth 64)
  else s.complete .tooSmall

/-- `CRCSTORE` (R133, R134): the four bytes of `DATA[31:0]`, most significant first, at `LEN - 4`. -/
def crcstore (d : PortDraws) (s : State) : State :=
  if s.HasSlot then s.storing d 0 s.slot (bytesOfWord s.dataWord)
  else s.complete .tooSmall

/-- The meaning of `CRCINIT` (R125). -/
def execCrcinit (s : State) : Host.Outcome State Fault Refusal :=
  .next ((s.withCrc crcOnes).complete .ok)

/-- The meaning of `CRCBYTE` (R127). -/
def execCrcbyte (s : State) : Host.Outcome State Fault Refusal :=
  .next ((s.withCrc (crcFold s.crc s.dataByte)).complete .ok)

/-- The meaning of `CRCFINAL` (R129). -/
def execCrcfinal (s : State) : Host.Outcome State Fault Refusal :=
  .next (s.returning ((s.crc ^^^ crcOnes).setWidth 64))

/-- The meaning of `CRCCOMP`. -/
def execCrccomp (s : State) : Host.Outcome State Fault Refusal :=
  .next (crccomp (Config.portDraws s.draws) s)

/-- The meaning of `CRCSTORE`. -/
def execCrcstore (s : State) : Host.Outcome State Fault Refusal :=
  .next (crcstore (Config.portDraws s.draws) s)

/-- The meaning of `TBLRD` (R135). -/
def execTblrd (s : State) : Host.Outcome State Fault Refusal :=
  .next (s.returning ((crcTable s.dataByte).setWidth 64))

end Sys2Proof.Machine
end

