-- ==== Sys2Proof/Syntax.lean ====
section
/-! DEFINITION. The commands of the block, one constructor per row of spec/opcode_table.json
(spec/30_encoding.md R74). -/

namespace Sys2Proof

/-- The nine commands. The only operand a command word holds is the width of a field (R76), a number
with no sign and no scaling (R72); every other operand is a register. -/
inductive Instr where
  /-- `RDBITS w`: read a bit field (R101). -/
  | rdbits (w : Nat)
  /-- `WRBITS w`: write a bit field (R103). -/
  | wrbits (w : Nat)
  /-- `RDU32`: read a big-endian 32-bit word at a byte offset (R108). -/
  | rdu32
  /-- `CRCINIT`: set the running CRC to its initial value (R125). -/
  | crcinit
  /-- `CRCBYTE`: fold one byte into the running CRC (R127). -/
  | crcbyte
  /-- `CRCFINAL`: finalise the running CRC (R129). -/
  | crcfinal
  /-- `CRCCOMP`: CRC-32 of the stream without its checksum slot (R131). -/
  | crccomp
  /-- `CRCSTORE`: write a checksum into the trailing slot (R133). -/
  | crcstore
  /-- `TBLRD`: read one CRC table entry (R135). -/
  | tblrd
deriving DecidableEq, Repr

end Sys2Proof
end

