-- ==== Sys2Proof/Machine/Dispatch.lean ====
section
/-! DEFINITION. Which meaning each command has. -/

namespace Sys2Proof.Machine

-- What the completion of a command does to the state (spec/10_state.md R32).
def exec (i : Instr) (s : State) : Host.Outcome State Fault Refusal :=
  match i with
  | .rdbits w => Sys2Proof.Machine.execRdbits w s
  | .wrbits w => Sys2Proof.Machine.execWrbits w s
  | .rdu32 => Sys2Proof.Machine.execRdu32 s
  | .crcinit => Sys2Proof.Machine.execCrcinit s
  | .crcbyte => Sys2Proof.Machine.execCrcbyte s
  | .crcfinal => Sys2Proof.Machine.execCrcfinal s
  | .crccomp => Sys2Proof.Machine.execCrccomp s
  | .crcstore => Sys2Proof.Machine.execCrcstore s
  | .tblrd => Sys2Proof.Machine.execTblrd s

end Sys2Proof.Machine
end

