-- ==== Sys2Proof/Machine/Flags.lean ====
section
/-! DEFINITION. The only flags of the block, the fields of `STATUS` (spec/10_state.md R33, R39). -/

namespace Sys2Proof.Machine

/-- The number of a status code in `STATUS.ERR` (spec/60_exceptions.md R150). -/
def Status.code : Status → BitVec 4
  | .ok => 0#4
  | .outOfRange => 1#4
  | .tooSmall => 2#4
  | .ioError => 3#4
  | .illegal => 4#4
  | .valueRange => 5#4

/-- `STATUS` as the host reads it: bit 0 `BUSY`, bit 1 `DONE`, bits 7:4 `ERR`, every other bit 0
(R33). -/
def State.status (s : State) : Word :=
  (s.err.code.setWidth 32 <<< 4) |||
    ((BitVec.ofBool s.done).setWidth 32 <<< 1) ||| (BitVec.ofBool s.busy).setWidth 32

end Sys2Proof.Machine
end

