-- ==== Sys2Proof/Machine/HostBus.lean ====
section
/-! DEFINITION. What the host's accesses do: the register window (spec/10_state.md R22 to R36) and the
bytes of `M` (R30). -/

namespace Sys2Proof.Machine

/-- The registers of the window (R22). -/
inductive Reg where
  | cmd
  | status
  | offset
  | len
  | dataLo
  | dataHi
  | resultLo
  | resultHi
  | crc
  /-- Offsets 0x24 to 0xFC (R36). -/
  | reserved
deriving DecidableEq, Repr

/-- The register at a byte offset of the window (R22, R36). -/
def regAt : Nat → Reg
  | 0x00 => .cmd
  | 0x04 => .status
  | 0x08 => .offset
  | 0x0C => .len
  | 0x10 => .dataLo
  | 0x14 => .dataHi
  | 0x18 => .resultLo
  | 0x1C => .resultHi
  | 0x20 => .crc
  | _ => .reserved

/-- The register a bus access of `bytes` bytes at `addr` selects: aligned 32-bit words of the window
only (R30, R60, U7; log 11, log 13). -/
def busReg (base addr bytes : Nat) : Except Refusal Reg :=
  if base ≤ addr ∧ addr < base + Config.windowBytes then
    if bytes = 4 ∧ (addr - base) % 4 = 0 then .ok (regAt (addr - base)) else .error .notAlignedWord
  else .error .outsideWindow

/-- What a host write of `v` to a register does while the block is idle: an issue (R31), `LEN`
clamped to `MEM_BYTES` (R25), one half of `DATA` (R26), the plain registers (R23, R28); writes to the
read-only and reserved offsets are ignored (R33, R27, R36, D38). -/
def State.writeIdle (s : State) (r : Reg) (v : Word) : State :=
  match r with
  | .cmd => s.issue v
  | .status => s
  | .offset => s.withOffset v
  | .len => s.withLen (BitVec.ofNat 32 (min v.toNat s.params.memBytes))
  | .dataLo => s.withData (setLowHalf s.data v)
  | .dataHi => s.withData (setHighHalf s.data v)
  | .resultLo => s
  | .resultHi => s
  | .crc => s.withCrc v
  | .reserved => s

/-- A host register write: ignored while the block is busy (R34). -/
def State.writeReg (s : State) (r : Reg) (v : Word) : State :=
  if s.busy then s else s.writeIdle r v

/-- What a register holds, as a host read of it returns it while the block is idle (R22, R29, R33,
R36). -/
def State.regValue (s : State) : Reg → Word
  | .cmd => 0x00000000#32
  | .status => s.status
  | .offset => s.offset
  | .len => s.len
  | .dataLo => s.data.extractLsb' 0 32
  | .dataHi => s.data.extractLsb' 32 32
  | .resultLo => s.result.extractLsb' 0 32
  | .resultHi => s.result.extractLsb' 32 32
  | .crc => s.crc
  | .reserved => 0x00000000#32

/-- The registers a command may be updating while the block is busy (R35). -/
def Reg.inFlight : Reg → Bool
  | .cmd => false
  | .status => false
  | .offset => false
  | .len => false
  | .dataLo => false
  | .dataHi => false
  | .resultLo => true
  | .resultHi => true
  | .crc => true
  | .reserved => false

/-- A host register read: while the block is busy `RESULT` and `CRC` read as any value, `v`, drawn at
each read; every other read returns what the register holds (R35, U4). -/
def State.readReg (s : State) (v : Word) (r : Reg) : State :=
  if s.busy && r.inFlight then (s.withBusData v).nextDraw else s.withBusData (s.regValue r)

/-- A host bus write. -/
def hostWrite (addr bytes : Nat) (v : Word) (s : State) : Host.Outcome State Fault Refusal :=
  match busReg s.params.regBase addr bytes with
  | .ok r => .next (s.writeReg r v)
  | .error e => .refused e

/-- A host bus read. -/
def hostRead (addr bytes : Nat) (s : State) : Host.Outcome State Fault Refusal :=
  match busReg s.params.regBase addr bytes with
  | .ok r => .next (s.readReg (Config.busyRead s.draws) r)
  | .error e => .refused e

/-- A host write of byte `a` of `M`, only while the block is idle (R30, R190). -/
def hostPoke (a : Nat) (b : Byte) (s : State) : Host.Outcome State Fault Refusal :=
  if s.busy then .refused .hostMemoryWhileBusy
  else if a < s.params.memBytes then .next (s.withMem (s.mem.store a b))
  else .fault (.noSuchByte a)

/-- A host read of byte `a` of `M`, only while the block is idle (R30, R190). -/
def hostPeek (a : Nat) (s : State) : Host.Outcome State Fault Refusal :=
  if s.busy then .refused .hostMemoryWhileBusy
  else if a < s.params.memBytes then .next (s.withBusData ((s.mem.read a).setWidth 32))
  else .fault (.noSuchByte a)

end Sys2Proof.Machine
end

