-- ==== Sys2Proof/WellFormed.lean ====
section
/-! DEFINITION. Which terms of `Instr` stand for a command the encoding admits (spec/30_encoding.md
R72, R74). -/

namespace Sys2Proof

/-- `RDBITS` takes a width from 1 to 64, `WRBITS` one from 0 to 64, the other commands none (R72). -/
def Instr.wellFormed : Instr → Bool
  | .rdbits w => decide (1 ≤ w) && decide (w ≤ Config.maxFieldWidth)
  | .wrbits w => decide (w ≤ Config.maxFieldWidth)
  | .rdu32 => true
  | .crcinit => true
  | .crcbyte => true
  | .crcfinal => true
  | .crccomp => true
  | .crcstore => true
  | .tblrd => true

end Sys2Proof
end

