-- ==== Sys2Proof/Decode.lean ====
section
/-! DEFINITION. Decoding a command word (spec/30_encoding.md R70 to R75), and the encoder beside it,
both from the one format of R70: `OPC` bits 3:0, `WIDTH` bits 10:4, `RSV` bits 31:11. -/

namespace Sys2Proof

/-- Why a word is illegal, by the causes R78 lists. -/
inductive IllegalWord where
  /-- A bit of `RSV` is set (R73). -/
  | reservedBits
  /-- `OPC` is 0x0 or 0xA to 0xF (R71). -/
  | opcode
  /-- `RDBITS` with `WIDTH` 0 (R72, D14). -/
  | readWidthZero
  /-- `RDBITS` or `WRBITS` with `WIDTH` above 64 (R72). -/
  | widthAbove64
  /-- An `OPC` from 0x3 to 0x9 with a nonzero `WIDTH` (R70). -/
  | widthNotZero
deriving DecidableEq, Repr

/-- `OPC = w[3:0]` (R71). -/
def opcField (w : Word) : Nat := (w.extractLsb' 0 4).toNat

/-- `WIDTH = w[10:4]`, an unsigned number (R72). -/
def widthField (w : Word) : Nat := (w.extractLsb' 4 7).toNat

/-- `RSV = w[31:11]` (R73). -/
def rsvField (w : Word) : Nat := (w.extractLsb' 11 21).toNat

/-- A command that takes no width: legal only with `WIDTH` 0 (R75). -/
def withoutWidth (i : Instr) (width : Nat) : Except IllegalWord Instr :=
  if width = 0 then .ok i else .error .widthNotZero

/-- `Decode` of R75: every word is one command or illegal, and an illegal one says why. -/
def decode (w : Word) : Except IllegalWord Instr :=
  if rsvField w ≠ 0 then .error .reservedBits
  else
    match opcField w with
    | 0x1 =>
      if widthField w = 0 then .error .readWidthZero
      else if widthField w ≤ Config.maxFieldWidth then .ok (.rdbits (widthField w))
      else .error .widthAbove64
    | 0x2 =>
      if widthField w ≤ Config.maxFieldWidth then .ok (.wrbits (widthField w))
      else .error .widthAbove64
    | 0x3 => withoutWidth .rdu32 (widthField w)
    | 0x4 => withoutWidth .crcinit (widthField w)
    | 0x5 => withoutWidth .crcbyte (widthField w)
    | 0x6 => withoutWidth .crcfinal (widthField w)
    | 0x7 => withoutWidth .crccomp (widthField w)
    | 0x8 => withoutWidth .crcstore (widthField w)
    | 0x9 => withoutWidth .tblrd (widthField w)
    | _ => .error .opcode

/-- The `OPC` of a command (R74). -/
def opcode : Instr → Nat
  | .rdbits _ => 0x1
  | .wrbits _ => 0x2
  | .rdu32 => 0x3
  | .crcinit => 0x4
  | .crcbyte => 0x5
  | .crcfinal => 0x6
  | .crccomp => 0x7
  | .crcstore => 0x8
  | .tblrd => 0x9

/-- The `WIDTH` of a command: 0 for every command but the two field accesses (R70). -/
def width : Instr → Nat
  | .rdbits w => w
  | .wrbits w => w
  | .rdu32 => 0
  | .crcinit => 0
  | .crcbyte => 0
  | .crcfinal => 0
  | .crccomp => 0
  | .crcstore => 0
  | .tblrd => 0

/-- The command word of a well-formed command: `OPC | (WIDTH << 4)` (R74). -/
def encode (i : Instr) : Word :=
  BitVec.ofNat 32 (opcode i) ||| (BitVec.ofNat 32 (width i) <<< 4)

/-- The command of a row of spec/opcode_table.json: the word is one 32-bit bus write with no byte
order (R80, D36), so its bits are the number's bits; bits at and above `nbits` are 0 (log 17). -/
def decodeTableWord (nbits w : Nat) : Option Instr :=
  (decode (BitVec.ofNat 32 (w % 2 ^ nbits))).toOption

end Sys2Proof
end

