-- ==== Sys2Proof/Machine/Reset.lean ====
section
/-! DEFINITION. Reset at any time (spec/70_reset_and_hazards.md R180 to R182). -/

namespace Sys2Proof.Machine

/-- The store a command would make from this state: the address and the bytes, if it reaches its
writes (R57, R103, R133). -/
def State.storeOf (s : State) : Instr → Option (Nat × List Byte)
  | .rdbits _ => none
  | .wrbits w =>
    if w = 0 ∨ ¬ s.InRange s.off w ∨ (s.params.strictValue = true ∧ s.ValueTooWide w) then none
    else some (spanFirst s.off, s.merged s.off w)
  | .rdu32 => none
  | .crcinit => none
  | .crcbyte => none
  | .crcfinal => none
  | .crccomp => none
  | .crcstore => if s.HasSlot then some (s.slot, bytesOfWord s.dataWord) else none
  | .tblrd => none

/-- `M` after a reset: unchanged (R181), but that each byte an aborted `WRBITS` or `CRCSTORE` would
write is old or new (R182, U2; log 10). -/
def State.abortedMem (s : State) (land : Nat → Bool) : Memory :=
  if s.busy then
    match decode s.pend with
    | .error _ => s.mem
    | .ok i =>
      match s.storeOf i with
      | none => s.mem
      | some (a, bytes) => s.mem.storeSome land a 0 bytes
  else s.mem

/-- Reset (R180): every register of the block takes its reset value and a pending command is aborted;
the host, its inputs and the draws are no part of the block. -/
def resetBlock (d : PortDraws) (s : State) : State :=
  { State.powerOn s.params (s.abortedMem d.landed) with
    inputs := s.inputs
    busData := s.busData
    draws := s.draws + 1 }

end Sys2Proof.Machine
end

