-- ==== Sys2Proof/Machine/Turn.lean ====
section
/-! DEFINITION. One turn of the machine: the next input of the outside world, or the block's own step
(spec/10_state.md R20, R30 to R34). -/

namespace Sys2Proof.Machine

/-- The block's one step, taken only while a command is pending (R20, R32): decode `PEND`, perform the
command, complete. An illegal word completes with `ILLEGAL` and no other effect (R78). -/
def blockTurn (s : State) : Host.Outcome State Fault Refusal :=
  if s.busy then
    match decode s.pend with
    | .ok i => exec i s
    | .error _ => .next (s.complete .illegal)
  else .next s

/-- One input of the outside world. -/
def inputTurn (x : Input) (s : State) : Host.Outcome State Fault Refusal :=
  match x with
  | .write addr bytes v => hostWrite addr bytes v s
  | .read addr bytes => hostRead addr bytes s
  | .poke a b => hostPoke a b s
  | .peek a => hostPeek a s
  | .reset => .next (resetBlock (Config.portDraws s.draws) s)
  | .block => blockTurn s

/-- One turn: the oldest input, or, when the outside world does nothing more, the block's step, so
that a pending command completes (R32, R194; log 5, log 14). -/
def takeTurn (s : State) : Host.Outcome State Fault Refusal :=
  match s.inputs with
  | [] => blockTurn s
  | x :: rest => inputTurn x (s.withInputs rest)

/-- The state in which the command word `w` has just been issued and the block moves next (R31). -/
def State.issued (s : State) (w : Word) : State :=
  (s.issue w).withInputs (.block :: s.inputs)

end Sys2Proof.Machine
end

