-- ==== Sys2Proof/Machine/Step.lean ====
section
/-! DEFINITION. The step of the machine, and the placing of a command where the next step runs it. -/

namespace Sys2Proof.Machine

/-- One step of the machine. -/
def step (s : State) : Host.Outcome State Fault Refusal := takeTurn s

/-- The command whose bits are `w` issued, as a host write of `CMD` does it (R31), and the block's
turn next: the block fetches nothing from memory (R24, R67; log 17). -/
def State.withFetchWord (s : State) (nbits w : Nat) : State :=
  s.issued (BitVec.ofNat 32 (w % 2 ^ nbits))

end Sys2Proof.Machine
end

