-- ==== Sys2Proof/Machine/HostProgram.lean ====
section
/-! DEFINITION. The host-program syntax of spec/30_encoding.md R81 and its pseudo-instructions (R82),
as functions that give the inputs a line stands for. -/

namespace Sys2Proof.Machine

/-- The registers a `SET` line names (R81). -/
inductive SetReg where
  | offset
  | len
  | crc
  | dataLo
  | dataHi
deriving DecidableEq, Repr

/-- The registers a `GET` line names: each register of R22, and `RESULT` for its two halves (R81). -/
inductive GetReg where
  | cmd
  | status
  | offset
  | len
  | dataLo
  | dataHi
  | resultLo
  | resultHi
  | result
  | crc
  /-- The reserved register at a byte offset of the window, 0x24 to 0xFC (R22, R36). -/
  | reserved (o : Nat)
deriving DecidableEq, Repr

/-- A line of a host program: the lines of R81, then the pseudo-instructions of R82. A line that waits
says how many reads of `STATUS` find the block busy first, any number being a run (U9). -/
inductive HostLine where
  | set (r : SetReg) (v : Word)
  | issue (i : Instr)
  | issueWord (w : Word)
  | wait (polls : Nat)
  | get (r : GetReg)
  | poke (a : Nat) (b : Byte)
  | peek (a : Nat)
  /-- A check of the test program, not an action. -/
  | expect
  | command (i : Instr) (polls : Nat)
  | setData (v : DWord)
  | rdfield (off : Word) (w polls : Nat)
  | wrfield (off : Word) (w : Nat) (v : DWord) (polls : Nat)
  | fold (b : Byte) (polls : Nat)
  | load (a : Nat) (bytes : List Byte)
deriving DecidableEq, Repr

/-- The offset in the window of a `SET` line's register (R22). -/
def SetReg.offsetInWindow : SetReg → Nat
  | .offset => 0x08
  | .len => 0x0C
  | .crc => 0x20
  | .dataLo => 0x10
  | .dataHi => 0x14

/-- The offsets in the window of a `GET` line's register, in the order they are read (R22, R81). -/
def GetReg.offsetsInWindow : GetReg → List Nat
  | .cmd => [0x00]
  | .status => [0x04]
  | .offset => [0x08]
  | .len => [0x0C]
  | .dataLo => [0x10]
  | .dataHi => [0x14]
  | .resultLo => [0x18]
  | .resultHi => [0x1C]
  | .result => [0x18, 0x1C]
  | .crc => [0x20]
  | .reserved o => [o]

/-- One 32-bit write of `CMD` (R29). -/
def inputsIssue (base : Nat) (w : Word) : List Input := [.write base 4 w]

/-- One 32-bit write of a register. -/
def inputsSet (base : Nat) (r : SetReg) (v : Word) : List Input :=
  [.write (base + r.offsetInWindow) 4 v]

/-- One 32-bit read of `STATUS`. -/
def readStatus (base : Nat) : Input := .read (base + 0x04) 4

/-- `WAIT`: reads of `STATUS` that find the block busy, the block's completion, and the read that
finds it idle (R81). -/
def inputsWait (base polls : Nat) : List Input :=
  List.replicate polls (readStatus base) ++ [.block, readStatus base]

/-- `SET DATA, v`: the low half, then the high half (R82). -/
def inputsSetData (base : Nat) (v : DWord) : List Input :=
  inputsSet base .dataLo (v.extractLsb' 0 32) ++ inputsSet base .dataHi (v.extractLsb' 32 32)

/-- A bare command mnemonic: `ISSUE` then `WAIT` (R82). -/
def inputsCommand (base : Nat) (i : Instr) (polls : Nat) : List Input :=
  inputsIssue base (encode i) ++ inputsWait base polls

/-- `LOAD`: one `POKE` a byte, from `a` up (R82). -/
def inputsLoad (a : Nat) : List Byte → List Input
  | [] => []
  | b :: rest => .poke a b :: inputsLoad (a + 1) rest

/-- The inputs a line stands for, with the register window at `base` (R81, R82). -/
def HostLine.inputs (base : Nat) : HostLine → List Input
  | .set r v => inputsSet base r v
  | .issue i => inputsIssue base (encode i)
  | .issueWord w => inputsIssue base w
  | .wait polls => inputsWait base polls
  | .get r => r.offsetsInWindow.map fun o => .read (base + o) 4
  | .poke a b => [.poke a b]
  | .peek a => [.peek a]
  | .expect => []
  | .command i polls => inputsCommand base i polls
  | .setData v => inputsSetData base v
  | .rdfield off w polls => inputsSet base .offset off ++ inputsCommand base (.rdbits w) polls
  | .wrfield off w v polls =>
    inputsSet base .offset off ++ inputsSetData base v ++ inputsCommand base (.wrbits w) polls
  | .fold b polls => inputsSetData base (b.setWidth 64) ++ inputsCommand base .crcbyte polls
  | .load a bytes => inputsLoad a bytes

/-- A field of the record the source's format edits, a convention of host programs only: the first
stream bit and the width (spec/20_memory.md R62). -/
structure RecordField where
  bit : Word
  width : Nat
deriving DecidableEq, Repr

/-- The minutes, seconds and milliseconds of the record (R62). -/
def recordFields : List RecordField := [⟨32#32, 7⟩, ⟨39#32, 7⟩, ⟨46#32, 10⟩]

end Sys2Proof.Machine
end

