-- ==== Sys2Proof/Safety.lean ====
section
/-! DEFINITION. The terms the claims use: the invariant of the machine, what a completed command
leaves alone, which host accesses the spec gives an effect, and the words of a command. -/

namespace Sys2Proof.Machine

/-- The invariant of the machine: `M` in its canonical form and only bytes that exist (R21),
`LEN <= MEM_BYTES` (R25, R41), `MEM_BYTES` in its range (R7), and `STATUS` as its fields are set and
cleared (R33): while busy no command is done, and `ERR` is 0 until one is. -/
structure State.Inv (s : State) : Prop where
  sorted : s.mem.wf = true
  exist : s.mem.below s.params.memBytes = true
  lenFits : s.len.toNat ≤ s.params.memBytes
  size : s.params.memBytes ≤ Config.maxMemBytes
  busyNotDone : s.busy = true → s.done = false
  errClear : s.done = false → s.err = .ok

/-- The registers are those of R40 after reset (`PEND` is unspecified there). -/
structure ResetRegisters (t : State) : Prop where
  offset : t.offset = 0x00000000#32
  len : t.len = 0x00000000#32
  data : t.data = 0x0000000000000000#64
  result : t.result = 0x0000000000000000#64
  crc : t.crc = 0xFFFFFFFF#32
  busy : t.busy = false
  done : t.done = false
  err : t.err = .ok

/-- A command has completed with the status code `c` (R32). -/
structure Completed (t : State) (c : Status) : Prop where
  busy : t.busy = false
  done : t.done = true
  err : t.err = c

/-- What no command writes: the operand registers (R23, R25, R26); the model's own fields beside them; and
`PEND`, which U8 leaves at any value after a completion and the model keeps (DESIGN CHOICE, log 4). -/
structure KeepsOperands (s t : State) : Prop where
  offset : t.offset = s.offset
  len : t.len = s.len
  data : t.data = s.data
  pend : t.pend = s.pend
  params : t.params = s.params
  inputs : t.inputs = s.inputs
  busData : t.busData = s.busData

/-- Every byte of `M` reads as before. -/
def SameBytes (s t : State) : Prop := ∀ a, t.mem.read a = s.mem.read a

/-- Every byte of `M` but the `n` from address `a` up reads as before. -/
def SameBytesOutside (s t : State) (a n : Nat) : Prop :=
  ∀ b, b < a ∨ a + n ≤ b → t.mem.read b = s.mem.read b

/-- A command has completed with the code `c` and no effect but `STATUS` (R151). -/
structure OnlyStatus (s t : State) (c : Status) : Prop where
  completed : Completed t c
  keeps : KeepsOperands s t
  result : t.result = s.result
  crc : t.crc = s.crc
  bytes : SameBytes s t

/-- The same state with a fault-free memory attached (`MEM_PORT_FAULTS = false`, R7). -/
def State.faultFree (s : State) : State :=
  { s with params := { s.params with memPortFaults := false } }

/-- The `WRBITS w` value check rejects (R105). -/
abbrev State.Rejects (s : State) (w : Nat) : Prop :=
  s.params.strictValue = true ∧ w < 64 ∧ 2 ^ w ≤ s.data.toNat

/-- A host access the spec gives no effect: `M` while busy (R30), a byte that does not exist (R21), a
register access that is no aligned 32-bit word of the window (R30, R60). -/
def Forbidden (s : State) : Input → Prop
  | .write addr bytes _ =>
    ¬ (s.params.regBase ≤ addr ∧ addr < s.params.regBase + 256 ∧ bytes = 4 ∧
      (addr - s.params.regBase) % 4 = 0)
  | .read addr bytes =>
    ¬ (s.params.regBase ≤ addr ∧ addr < s.params.regBase + 256 ∧ bytes = 4 ∧
      (addr - s.params.regBase) % 4 = 0)
  | .poke a _ => s.busy = true ∨ s.params.memBytes ≤ a
  | .peek a => s.busy = true ∨ s.params.memBytes ≤ a
  | .reset => False
  | .block => False

/-- The illegal words, by the bits R78 lists: `OPC` is `w mod 16`, `WIDTH` is `(w div 16) mod 128`,
`RSV` is `w div 2048`. -/
def IllegalBits (w : Word) : Prop :=
  w.toNat % 16 = 0 ∨ 10 ≤ w.toNat % 16 ∨ w.toNat / 2048 ≠ 0 ∨ 64 < w.toNat / 16 % 128 ∨
    (w.toNat % 16 = 1 ∧ w.toNat / 16 % 128 = 0) ∨
    (3 ≤ w.toNat % 16 ∧ w.toNat / 16 % 128 ≠ 0)

/-- The one word of a command without a width is its `OPC`; any other word with that `OPC` is illegal
(R74, R75). -/
def OneWord (opc : Nat) (i : Instr) : Prop :=
  decode (BitVec.ofNat 32 opc) = .ok i ∧
    ∀ w : Word, w.toNat % 16 = opc → w ≠ BitVec.ofNat 32 opc → ∃ e, decode w = .error e

/-- The bytes `CRCCOMP` folds: `M[0] .. M[LEN - 5]` in rising order (R131). -/
def State.summed (s : State) : List Byte := (List.range (s.len.toNat - 4)).map s.mem.read

/-- `CRCBYTE` for each byte of a list in turn, `DATA` set to it before (R136). -/
def foldCommands : List Byte → State → Host.Outcome State Fault Refusal
  | [], s => .next s
  | b :: rest, s =>
    match exec .crcbyte (s.withData (b.setWidth 64)) with
    | .next t => foldCommands rest t
    | .fault f => .fault f
    | .refused r => .refused r

end Sys2Proof.Machine
end

