-- ==== Sys2Proof/Certificates/Slice0/Obligations.lean ====
section
/-! DEFINITION. The statements about the block, each from the numbered rules of spec/ its docstring
names. -/

open Sys2Proof Sys2Proof.Machine

/-! ### Reset and the invariant -/

/-- R180: at power-on and at any later reset every register takes the value of R40, and the block is
then idle and accepts a `CMD` write at once. -/
def Obligations.ResetGivesEveryRegisterItsValue : Prop :=
  (∀ p m, ResetRegisters (State.powerOn p m)) ∧
  (∀ (s : State) rest, s.inputs = .reset :: rest →
    ∃ t, step s = .next t ∧ ResetRegisters t ∧ t.inputs = rest ∧ t.params = s.params) ∧
  (∀ (s : State) w rest, ResetRegisters s → s.inputs = .write s.params.regBase 4 w :: rest →
    ∃ t, step s = .next t ∧ t.busy = true ∧ t.pend = w ∧ t.inputs = rest)

/-- R182: a reset while a command is pending aborts it; each byte the command would have written is
old or new, and a command that writes no byte leaves `M` unchanged. -/
def Obligations.ResetAbortsThePendingCommand : Prop :=
  ∀ (s : State) rest, s.busy = true → s.inputs = .reset :: rest →
    ∃ t, step s = .next t ∧ ResetRegisters t ∧
      (∀ i u, decode s.pend = .ok i → exec i s.faultFree = .next u →
        ∀ a, t.mem.read a = s.mem.read a ∨ t.mem.read a = u.mem.read a) ∧
      ((∀ w, decode s.pend ≠ .ok (.wrbits w)) → decode s.pend ≠ .ok .crcstore → SameBytes s t)

/-- R181 while idle: reset does not change the byte memory. -/
def Obligations.IdleResetKeepsMemory : Prop :=
  ∀ (s : State) rest, s.busy = false → s.inputs = .reset :: rest →
    ∃ t, step s = .next t ∧ t.mem = s.mem ∧ t.params = s.params

/-- The invariant holds at power-on, whatever the parameters R7 admits and whatever canonical memory
is attached, and so at `State.reset`, whose parameters are the model's choice (log 1). -/
def Obligations.InvariantAtPowerOn : Prop :=
  (∀ p m, p.memBytes ≤ 2 ^ 32 - 1 → m.wf = true → m.below p.memBytes = true →
    (State.powerOn p m).Inv) ∧
  State.reset.Inv

/-- R21, R25, R33, R41: every step of the machine, whichever agent moves, keeps the invariant. -/
def Obligations.EveryStepKeepsTheInvariant : Prop :=
  ∀ s t : State, s.Inv → step s = .next t → t.Inv

/-! ### Encoding -/

/-- Decoding the word of a well-formed command gives it back. -/
def Obligations.DecodeOfEncode : Prop :=
  ∀ i : Instr, i.wellFormed = true → decode (encode i) = .ok i

/-- A word that decodes is the word of the command it decodes to, and that command is well formed: no
two words stand for one command. -/
def Obligations.EncodeOfDecode : Prop :=
  ∀ (w : Word) (i : Instr), decode w = .ok i → i.wellFormed = true ∧ encode i = w

/-- R74: which words are legal, which command each is, and that every other word is illegal. -/
def Obligations.LegalWordsAreExactlyTheTable : Prop :=
  (∀ n, 1 ≤ n → n ≤ 64 →
    decode (0x00000001#32 ||| (BitVec.ofNat 32 n <<< 4)) = .ok (.rdbits n)) ∧
  (∀ n, n ≤ 64 → decode (0x00000002#32 ||| (BitVec.ofNat 32 n <<< 4)) = .ok (.wrbits n)) ∧
  decode 0x00000003#32 = .ok .rdu32 ∧ decode 0x00000004#32 = .ok .crcinit ∧
  decode 0x00000005#32 = .ok .crcbyte ∧ decode 0x00000006#32 = .ok .crcfinal ∧
  decode 0x00000007#32 = .ok .crccomp ∧ decode 0x00000008#32 = .ok .crcstore ∧
  decode 0x00000009#32 = .ok .tblrd ∧
  (∀ w : Word,
    (∀ n, 1 ≤ n → n ≤ 64 → w ≠ 0x00000001#32 ||| (BitVec.ofNat 32 n <<< 4)) →
    (∀ n, n ≤ 64 → w ≠ 0x00000002#32 ||| (BitVec.ofNat 32 n <<< 4)) →
    ¬ (3 ≤ w.toNat ∧ w.toNat ≤ 9) → ∃ e, decode w = .error e)

/-- R83: the words of the commands the spec's programs use. -/
def Obligations.WordsOfTheProgramsCommands : Prop :=
  encode (.rdbits 4) = 0x00000041#32 ∧ encode (.rdbits 7) = 0x00000071#32 ∧
  encode (.rdbits 8) = 0x00000081#32 ∧ encode (.rdbits 10) = 0x000000A1#32 ∧
  encode (.rdbits 16) = 0x00000101#32 ∧ encode (.rdbits 32) = 0x00000201#32 ∧
  encode (.rdbits 64) = 0x00000401#32 ∧ encode (.wrbits 0) = 0x00000002#32 ∧
  encode (.wrbits 4) = 0x00000042#32 ∧ encode (.wrbits 7) = 0x00000072#32 ∧
  encode (.wrbits 10) = 0x000000A2#32 ∧ encode (.wrbits 64) = 0x00000402#32 ∧
  encode .rdu32 = 0x00000003#32 ∧ encode .crcinit = 0x00000004#32 ∧
  encode .crcbyte = 0x00000005#32 ∧ encode .crcfinal = 0x00000006#32 ∧
  encode .crccomp = 0x00000007#32 ∧ encode .crcstore = 0x00000008#32 ∧
  encode .tblrd = 0x00000009#32

/-- A few words written out from the format of R70 decode to their commands (R74). -/
def Obligations.WordsDecodeToTheirCommands : Prop :=
  decode 0b00000000000000000000000001110001#32 = .ok (.rdbits 7) ∧
  decode 0b00000000000000000000010000000001#32 = .ok (.rdbits 64) ∧
  decode 0b00000000000000000000000010100010#32 = .ok (.wrbits 10) ∧
  decode 0b00000000000000000000000000000011#32 = .ok .rdu32 ∧
  decode 0b00000000000000000000000000000111#32 = .ok .crccomp ∧
  decode 0b00000000000000000000000000001001#32 = .ok .tblrd

/-! ### The step and the command lifecycle -/

/-- R32: while a command is pending and the block moves, the step is the meaning of the command `PEND`
decodes to, at that state with the turn taken; and it is so for a command placed by `withFetchWord`.
R20, R167: while none is pending the block's turn changes nothing but the input taken.
That `PEND` is kept while the block is idle is the model's choice (log 4). -/
def Obligations.StepRunsTheDecodedCommand : Prop :=
  (∀ (s : State) i, s.busy = true → decode s.pend = .ok i → s.inputs = [] →
    step s = exec i s) ∧
  (∀ (s : State) i rest, s.busy = true → decode s.pend = .ok i → s.inputs = .block :: rest →
    step s = exec i (s.withInputs rest)) ∧
  (∀ (s : State) (w : Word) i, decode w = .ok i →
    step (s.withFetchWord 32 w.toNat) = exec i (s.issue w)) ∧
  (∀ s : State, s.busy = false → s.inputs = [] → step s = .next s) ∧
  (∀ (s : State) rest, s.busy = false → s.inputs = .block :: rest →
    step s = .next (s.withInputs rest))

/-- R78: an illegal word completes with `ILLEGAL` and changes nothing but `STATUS`, whichever way the
block comes to its turn: no input left, a turn granted, or a word placed by `withFetchWord`.
That a completion keeps `PEND` is the model's choice (log 4). -/
def Obligations.IllegalWordsCompleteWithIllegal : Prop :=
  (∀ s : State, s.busy = true → IllegalBits s.pend → s.inputs = [] →
    ∃ t, step s = .next t ∧ OnlyStatus s t .illegal) ∧
  (∀ (s : State) rest, s.busy = true → IllegalBits s.pend → s.inputs = .block :: rest →
    ∃ t, step s = .next t ∧ OnlyStatus (s.withInputs rest) t .illegal) ∧
  (∀ (s : State) (w : Word), IllegalBits w →
    ∃ t, step (s.withFetchWord 32 w.toNat) = .next t ∧ OnlyStatus (s.issue w) t .illegal)

/-- R31: a host write of `CMD` while the block is idle issues the command and changes nothing else. -/
def Obligations.IssueLatchesTheWord : Prop :=
  ∀ (s : State) w rest, s.busy = false → s.inputs = .write s.params.regBase 4 w :: rest →
    ∃ t, step s = .next t ∧ t.pend = w ∧ t.busy = true ∧ t.done = false ∧ t.err = .ok ∧
      t.mem = s.mem ∧ t.offset = s.offset ∧ t.len = s.len ∧ t.data = s.data ∧
      t.result = s.result ∧ t.crc = s.crc ∧ t.params = s.params ∧ t.inputs = rest ∧
      t.busData = s.busData ∧ t.draws = s.draws

/-- R34: while the block is busy a host write to any register, `CMD` included, changes no state. -/
def Obligations.BusyWritesAreIgnored : Prop :=
  ∀ (s : State) addr v rest, s.busy = true → s.params.regBase ≤ addr →
    addr < s.params.regBase + 256 → (addr - s.params.regBase) % 4 = 0 →
    s.inputs = .write addr 4 v :: rest → step s = .next (s.withInputs rest)

/-- R32, R194: however many times the host polls `STATUS` first, a pending command then completes (that
the block moves when no input is left is the model's choice, log 5). -/
def Obligations.PendingCommandCompletesAfterAnyPolling : Prop :=
  ∀ (n : Nat) (s : State), s.busy = true →
    s.inputs = List.replicate n (readStatus s.params.regBase) →
    ∃ t, Host.Core.run Sys2Proof.core (n + 1) s = .next t ∧ t.busy = false ∧ t.done = true

/-- R34, R186 (the busy hazard): a write of `CRC` right after an issue of `CRCINIT` takes effect if the
block completed first and is lost if not. -/
def Obligations.BusyHazardHasBothOutcomes : Prop :=
  ∀ (s : State) v rest, s.busy = false →
    (s.inputs = .write s.params.regBase 4 0x00000004#32 :: .block ::
        .write (s.params.regBase + 0x20) 4 v :: rest →
      ∃ t, Host.Core.run Sys2Proof.core 3 s = .next t ∧ t.crc = v ∧ t.busy = false) ∧
    (s.inputs = .write s.params.regBase 4 0x00000004#32 ::
        .write (s.params.regBase + 0x20) 4 v :: .block :: rest →
      ∃ t, Host.Core.run Sys2Proof.core 3 s = .next t ∧ t.crc = 0xFFFFFFFF#32 ∧ t.busy = false)

/-- The step stops exactly on the host accesses the spec gives no effect (R30, R190, U6, U7; R21 and
R60 for what does not exist: log 11 and log 12, the model's reading). -/
def Obligations.StepStopsOnlyOnForbiddenAccesses : Prop :=
  ∀ s : State, (∀ t, step s ≠ .next t) ↔
    ∃ x rest, s.inputs = x :: rest ∧ Forbidden (s.withInputs rest) x

/-! ### Host accesses -/

/-- R25: a host write of `LEN` while idle stores `min(v, MEM_BYTES)`; no command writes `LEN`; and
`LEN <= MEM_BYTES` is kept by every step. -/
def Obligations.LenIsClampedAndKept : Prop :=
  (∀ (s : State) v rest, s.busy = false → s.inputs = .write (s.params.regBase + 0x0C) 4 v :: rest →
    ∃ t, step s = .next t ∧ t.len.toNat = min v.toNat s.params.memBytes ∧ SameBytes s t ∧
      t.offset = s.offset ∧ t.data = s.data ∧ t.result = s.result ∧ t.crc = s.crc ∧
      t.status = s.status) ∧
  (∀ (i : Instr) (s t : State), exec i s = .next t → t.len = s.len) ∧
  (∀ s t : State, s.len.toNat ≤ s.params.memBytes → step s = .next t →
    t.len.toNat ≤ t.params.memBytes)

/-- R26: a host write of a half of `DATA` while idle changes that half only; no command writes
`DATA`. -/
def Obligations.DataHalvesAreWrittenApart : Prop :=
  (∀ (s : State) v rest, s.busy = false → s.inputs = .write (s.params.regBase + 0x10) 4 v :: rest →
    ∃ t, step s = .next t ∧ t.data.extractLsb' 0 32 = v ∧
      t.data.extractLsb' 32 32 = s.data.extractLsb' 32 32 ∧ SameBytes s t ∧
      t.offset = s.offset ∧ t.len = s.len ∧ t.result = s.result ∧ t.crc = s.crc ∧
      t.status = s.status) ∧
  (∀ (s : State) v rest, s.busy = false → s.inputs = .write (s.params.regBase + 0x14) 4 v :: rest →
    ∃ t, step s = .next t ∧ t.data.extractLsb' 32 32 = v ∧
      t.data.extractLsb' 0 32 = s.data.extractLsb' 0 32 ∧ SameBytes s t ∧
      t.offset = s.offset ∧ t.len = s.len ∧ t.result = s.result ∧ t.crc = s.crc ∧
      t.status = s.status) ∧
  (∀ (i : Instr) (s t : State), exec i s = .next t → t.data = s.data)

/-- R23, R28, R36, D38: host writes of `OFFSET` and `CRC` while idle set them and nothing else; host
writes of `STATUS`, of the halves of `RESULT` and of the reserved offsets change no state.
That `PEND` is kept while the block is idle is the model's choice (log 4). -/
def Obligations.PlainAndReadOnlyRegisterWrites : Prop :=
  (∀ (s : State) v rest, s.busy = false → s.inputs = .write (s.params.regBase + 0x08) 4 v :: rest →
    step s = .next ((s.withInputs rest).withOffset v)) ∧
  (∀ (s : State) v rest, s.busy = false → s.inputs = .write (s.params.regBase + 0x20) 4 v :: rest →
    step s = .next ((s.withInputs rest).withCrc v)) ∧
  (∀ (s : State) o v rest, s.busy = false → o % 4 = 0 → o < 256 →
    (o = 0x04 ∨ o = 0x18 ∨ o = 0x1C ∨ 0x24 ≤ o) →
    s.inputs = .write (s.params.regBase + o) 4 v :: rest → step s = .next (s.withInputs rest))

/-- R33: a host read of `STATUS`, at any time, returns `BUSY` in bit 0, `DONE` in bit 1, `ERR` in bits
7:4 and 0 in every other bit, and changes no register.
That `PEND` is kept while the block is idle is the model's choice (log 4). -/
def Obligations.StatusReadsItsFields : Prop :=
  ∀ (s : State) rest, s.inputs = readStatus s.params.regBase :: rest →
    ∃ t, step s = .next t ∧ t = (s.withInputs rest).withBusData t.busData ∧
      t.busData.getLsbD 0 = s.busy ∧ t.busData.getLsbD 1 = s.done ∧
      t.busData.extractLsb' 4 4 = s.err.code ∧
      (∀ j, j = 2 ∨ j = 3 ∨ 8 ≤ j → t.busData.getLsbD j = false)

/-- R22, R29, R36: what a host read of each other register returns while the block is idle; reading
changes no register.
That `PEND` is kept while the block is idle is the model's choice (log 4). -/
def Obligations.IdleReadsReturnTheRegisters : Prop :=
  ∀ (s : State) o rest, s.busy = false → o % 4 = 0 → o < 256 →
    s.inputs = .read (s.params.regBase + o) 4 :: rest →
    ∃ t, step s = .next t ∧ t = (s.withInputs rest).withBusData t.busData ∧
      (o = 0x00 → t.busData = 0#32) ∧ (o = 0x08 → t.busData = s.offset) ∧
      (o = 0x0C → t.busData = s.len) ∧ (o = 0x10 → t.busData = s.data.extractLsb' 0 32) ∧
      (o = 0x14 → t.busData = s.data.extractLsb' 32 32) ∧
      (o = 0x18 → t.busData = s.result.extractLsb' 0 32) ∧
      (o = 0x1C → t.busData = s.result.extractLsb' 32 32) ∧ (o = 0x20 → t.busData = s.crc) ∧
      (0x24 ≤ o → t.busData = 0#32)

/-- R35: while busy a host read of `STATUS`, `OFFSET`, `LEN`, `DATA_LO`, `DATA_HI` returns the current
value; one of `RESULT_LO`, `RESULT_HI`, `CRC` returns a value about which nothing is known (the read
taken with any value `v` returns `v`), and no read changes a register. R29, R36: `CMD` and the reserved
offsets return 0 then too. That a read keeps `PEND` while the block is idle, which the last clause says
beside, is the model's choice (log 4). -/
def Obligations.BusyReads : Prop :=
  (∀ (s : State) o rest, s.busy = true → o % 4 = 0 → o < 256 →
    s.inputs = .read (s.params.regBase + o) 4 :: rest →
    ∃ t, step s = .next t ∧
      t = ((s.withInputs rest).readReg (Config.busyRead s.draws) (regAt o)) ∧
      (o = 0x00 → t.busData = 0#32) ∧ (0x24 ≤ o → t.busData = 0#32) ∧
      (o = 0x04 → t.busData = s.status) ∧ (o = 0x08 → t.busData = s.offset) ∧
      (o = 0x0C → t.busData = s.len) ∧ (o = 0x10 → t.busData = s.data.extractLsb' 0 32) ∧
      (o = 0x14 → t.busData = s.data.extractLsb' 32 32)) ∧
  (∀ (s : State) (v : Word) r, s.busy = true → r = .resultLo ∨ r = .resultHi ∨ r = .crc →
    (s.readReg v r).busData = v) ∧
  (∀ (s : State) (v : Word) r, (s.readReg v r).result = s.result ∧ (s.readReg v r).crc = s.crc ∧
    (s.readReg v r).mem = s.mem ∧ (s.readReg v r).pend = s.pend ∧
    (s.readReg v r).offset = s.offset ∧ (s.readReg v r).len = s.len ∧
    (s.readReg v r).data = s.data ∧ (s.readReg v r).status = s.status)

/-- R30, R190: while idle the host writes one byte of `M` and reads one; while busy the model refuses
such an access (U6). That a byte read is kept zero-extended in `busData` is the model's choice (log 6).
That `PEND` is kept while the block is idle is the model's choice (log 4). -/
def Obligations.HostReachesMemoryOnlyWhileIdle : Prop :=
  (∀ (s : State) a b rest, s.busy = false → a < s.params.memBytes → s.inputs = .poke a b :: rest →
    ∃ t, step s = .next t ∧ t.mem.read a = b ∧ SameBytesOutside s t a 1 ∧
      t = (s.withInputs rest).withMem t.mem) ∧
  (∀ (s : State) a rest, s.busy = false → a < s.params.memBytes → s.inputs = .peek a :: rest →
    step s = .next ((s.withInputs rest).withBusData ((s.mem.read a).setWidth 32))) ∧
  (∀ (s : State) a b rest, s.busy = true →
    s.inputs = .poke a b :: rest ∨ s.inputs = .peek a :: rest →
    step s = .refused .hostMemoryWhileBusy)

/-! ### Bit accessor commands -/

/-- R101, `RDBITS`: in range it returns the field, first bit most significant, zero above; out of range
it has no effect but `STATUS`; with a faulting memory port it does the first or ends in `IO_ERROR` with
`RESULT` kept; its word, and the widths that are illegal. It changes no byte of `M`.
That a completion keeps `PEND` is the model's choice (log 4). -/
def Obligations.RdbitsReadsTheField : Prop :=
  (∀ (s : State) w, 1 ≤ w → w ≤ 64 → s.params.memPortFaults = false →
    s.offset.toNat + w ≤ 8 * s.len.toNat →
    ∃ t, exec (.rdbits w) s = .next t ∧ Completed t .ok ∧ KeepsOperands s t ∧ SameBytes s t ∧
      t.crc = s.crc ∧
      (∀ i, i < w → t.result.getLsbD (w - 1 - i) = s.mem.streamBit (s.offset.toNat + i)) ∧
      ∀ j, w ≤ j → t.result.getLsbD j = false) ∧
  (∀ (s : State) w, 1 ≤ w → w ≤ 64 → 8 * s.len.toNat < s.offset.toNat + w →
    ∃ t, exec (.rdbits w) s = .next t ∧ OnlyStatus s t .outOfRange) ∧
  (∀ (s : State) w, 1 ≤ w → w ≤ 64 → s.offset.toNat + w ≤ 8 * s.len.toNat →
    ∃ t, exec (.rdbits w) s = .next t ∧
      (OnlyStatus s t .ioError ∨
        exec (.rdbits w) s.faultFree = .next { t with params := s.faultFree.params })) ∧
  (∀ w, 1 ≤ w → w ≤ 64 →
    decode (0x00000001#32 ||| (BitVec.ofNat 32 w <<< 4)) = .ok (.rdbits w)) ∧
  (∀ w, w < 128 → w = 0 ∨ 64 < w →
    ∃ e, decode (0x00000001#32 ||| (BitVec.ofNat 32 w <<< 4)) = .error e)

/-- R106, `WRBITS w` with `w >= 1`: where it completes `OK`, the field holds the low `w` bits of `DATA`,
first bit most significant, every other bit of the stream and every byte outside the span is as before,
and no register is written; and it does complete `OK` where the field is in range, the value is not
rejected and the memory port is fault-free.
That a completion keeps `PEND` is the model's choice (log 4). -/
def Obligations.WrbitsWritesTheFieldAndNothingElse : Prop :=
  (∀ (s : State) w, 1 ≤ w → w ≤ 64 → s.params.memPortFaults = false →
    s.offset.toNat + w ≤ 8 * s.len.toNat → ¬ s.Rejects w →
    ∃ t, exec (.wrbits w) s = .next t ∧ Completed t .ok) ∧
  (∀ (s t : State) w, 1 ≤ w → w ≤ 64 → exec (.wrbits w) s = .next t → t.err = .ok →
    KeepsOperands s t ∧ t.result = s.result ∧ t.crc = s.crc ∧
    SameBytesOutside s t (spanFirst s.offset.toNat) (spanBytes s.offset.toNat w) ∧
    ∀ p, t.mem.streamBit p =
      if s.offset.toNat ≤ p ∧ p < s.offset.toNat + w
      then s.data.getLsbD (w - 1 - (p - s.offset.toNat)) else s.mem.streamBit p)

/-- R104: `WRBITS 0` completes `OK` and changes nothing but `STATUS`, whatever the operands, the value
check and the memory port.
That a completion keeps `PEND` is the model's choice (log 4). -/
def Obligations.WrbitsOfWidthZeroDoesNothing : Prop :=
  ∀ s : State, ∃ t, exec (.wrbits 0) s = .next t ∧ OnlyStatus s t .ok

/-- R105: without `STRICT_VALUE` the bits of `DATA` above the width are never reported and have no
effect; with it a value too wide for a width of 1 to 63 ends in `VALUE_RANGE` with no effect but
`STATUS`, after the bounds check.
The second clause compares two runs under the same draw of the memory port, which both take from the
same counter: with a faulting port that is the model's choice (log 7), as U1 and U2 leave each run's
draws to its environment. That a completion keeps `PEND` is the model's choice (log 4). -/
def Obligations.WrbitsTruncatesOrRejectsWideValues : Prop :=
  (∀ (s t : State) w, w ≤ 64 → s.params.strictValue = false → exec (.wrbits w) s = .next t →
    t.err ≠ .valueRange ∧
    (t.err = .ok → ∀ i, i < w → t.mem.streamBit (s.offset.toNat + i) =
      (BitVec.ofNat 64 (s.data.toNat % 2 ^ w)).getLsbD (w - 1 - i))) ∧
  (∀ (s : State) v w, w ≤ 64 → s.params.strictValue = false →
    v.toNat % 2 ^ w = s.data.toNat % 2 ^ w →
    ∃ t u, exec (.wrbits w) s = .next t ∧ exec (.wrbits w) (s.withData v) = .next u ∧
      u.err = t.err ∧ SameBytes t u) ∧
  (∀ (s : State) w, 1 ≤ w → w ≤ 63 → s.params.strictValue = true → 2 ^ w ≤ s.data.toNat →
    ∃ t, exec (.wrbits w) s = .next t ∧
      (s.offset.toNat + w ≤ 8 * s.len.toNat → OnlyStatus s t .valueRange) ∧
      (8 * s.len.toNat < s.offset.toNat + w → OnlyStatus s t .outOfRange))

/-- R103's error: `WRBITS` out of range has no effect but `STATUS`, with any value, in either mode.
That a completion keeps `PEND` is the model's choice (log 4). -/
def Obligations.WrbitsOutOfRangeHasNoEffect : Prop :=
  ∀ (s : State) w, 1 ≤ w → w ≤ 64 → 8 * s.len.toNat < s.offset.toNat + w →
    ∃ t, exec (.wrbits w) s = .next t ∧ OnlyStatus s t .outOfRange

/-- R107: `WRBITS` of a field in range ends in `IO_ERROR` exactly where one of the accesses it makes fails,
whichever the draw `d` of the environment makes fail; then each byte of the span is old or the merged
value, no byte outside it changes, and no register is written. `exec` takes the next draw.
That a completion keeps `PEND` is the model's choice (log 4). -/
def Obligations.WrbitsPortFaultLeavesBytesOldOrNew : Prop :=
  (∀ (d : PortDraws) (s : State) w, 1 ≤ w → w ≤ 64 →
    s.offset.toNat + w ≤ 8 * s.len.toNat → ¬ s.Rejects w →
    ((wrbits d w s).err = .ioError ↔ s.params.memPortFaults = true ∧
      ∃ k, k < 2 * spanBytes s.offset.toNat w ∧ d.fails k = true)) ∧
  (∀ (d : PortDraws) (s u : State) w, 1 ≤ w → w ≤ 64 → (wrbits d w s).err = .ioError →
    exec (.wrbits w) s.faultFree = .next u →
    Completed (wrbits d w s) .ioError ∧ KeepsOperands s (wrbits d w s) ∧
    (wrbits d w s).result = s.result ∧ (wrbits d w s).crc = s.crc ∧
    SameBytesOutside s (wrbits d w s) (spanFirst s.offset.toNat)
      (spanBytes s.offset.toNat w) ∧
    ∀ a, (wrbits d w s).mem.read a = s.mem.read a ∨
      (wrbits d w s).mem.read a = u.mem.read a) ∧
  (∀ (s : State) w, exec (.wrbits w) s = .next (wrbits (Config.portDraws s.draws) w s))

/-- R108, `RDU32`: in range it returns the four bytes at the byte offset, most significant first; out
of range it has no effect but `STATUS`; with a faulting memory port it does the first or ends in
`IO_ERROR` with `RESULT` kept; its one word. It changes no byte of `M`.
That a completion keeps `PEND` is the model's choice (log 4). -/
def Obligations.RduReadsFourBytesBigEndian : Prop :=
  (∀ s : State, s.params.memPortFaults = false → s.offset.toNat + 4 ≤ s.len.toNat →
    ∃ t, exec .rdu32 s = .next t ∧ Completed t .ok ∧ KeepsOperands s t ∧ SameBytes s t ∧
      t.crc = s.crc ∧
      t.result.toNat = 2 ^ 24 * (s.mem.read s.offset.toNat).toNat +
        2 ^ 16 * (s.mem.read (s.offset.toNat + 1)).toNat +
        2 ^ 8 * (s.mem.read (s.offset.toNat + 2)).toNat +
        (s.mem.read (s.offset.toNat + 3)).toNat) ∧
  (∀ s : State, s.len.toNat < s.offset.toNat + 4 →
    ∃ t, exec .rdu32 s = .next t ∧ OnlyStatus s t .outOfRange) ∧
  (∀ s : State, s.offset.toNat + 4 ≤ s.len.toNat →
    ∃ t, exec .rdu32 s = .next t ∧
      (OnlyStatus s t .ioError ∨
        exec .rdu32 s.faultFree = .next { t with params := s.faultFree.params })) ∧
  OneWord 3 .rdu32

/-- R102: `RDBITS` and `RDU32` in range end in `IO_ERROR` exactly where one of their reads fails,
whichever the draw `d` of the environment makes fail; then nothing but `STATUS` changes. `exec` takes
the next draw.
That a completion keeps `PEND` is the model's choice (log 4). -/
def Obligations.FailedReadsKeepResultAndMemory : Prop :=
  (∀ (d : PortDraws) (s : State) w, s.offset.toNat + w ≤ 8 * s.len.toNat →
    ((rdbits d w s).err = .ioError ↔ s.params.memPortFaults = true ∧
      ∃ k, k < spanBytes s.offset.toNat w ∧ d.fails k = true)) ∧
  (∀ (d : PortDraws) (s : State), s.offset.toNat + 4 ≤ s.len.toNat →
    ((rdu32 d s).err = .ioError ↔ s.params.memPortFaults = true ∧
      ∃ k, k < 4 ∧ d.fails k = true)) ∧
  (∀ (d : PortDraws) (s : State),
    (∀ w, (rdbits d w s).err = .ioError → OnlyStatus s (rdbits d w s) .ioError) ∧
    ((rdu32 d s).err = .ioError → OnlyStatus s (rdu32 d s) .ioError)) ∧
  (∀ (s : State) w, exec (.rdbits w) s = .next (rdbits (Config.portDraws s.draws) w s) ∧
    exec .rdu32 s = .next (rdu32 (Config.portDraws s.draws) s))

/-- R54, with a fault-free memory port: the views of the same bytes by `RDU32` and by `RDBITS` of 32, 16 and 8 bits agree. -/
def Obligations.MixedWidthViewsAgree : Prop :=
  ∀ (s : State) a, s.params.memPortFaults = false →
    (∀ o1 o2 : Word, o1.toNat = a → o2.toNat = 8 * a → a + 4 ≤ s.len.toNat →
      ∃ t u, exec .rdu32 (s.withOffset o1) = .next t ∧
        exec (.rdbits 32) (s.withOffset o2) = .next u ∧ t.err = .ok ∧ u.err = .ok ∧
        t.result = u.result) ∧
    (∀ o : Word, o.toNat = 8 * a → a + 2 ≤ s.len.toNat →
      ∃ t, exec (.rdbits 16) (s.withOffset o) = .next t ∧ t.err = .ok ∧
        t.result.toNat = 256 * (s.mem.read a).toNat + (s.mem.read (a + 1)).toNat) ∧
    (∀ o : Word, o.toNat = 8 * a + 4 → a + 2 ≤ s.len.toNat →
      ∃ t, exec (.rdbits 8) (s.withOffset o) = .next t ∧ t.err = .ok ∧
        t.result.toNat = 16 * ((s.mem.read a).toNat % 16) + (s.mem.read (a + 1)).toNat / 16)

/-- R110: `WRBITS w` then `RDBITS w` at the same offset returns the value cut to `w` bits. -/
def Obligations.WriteThenReadReturnsTheValue : Prop :=
  ∀ (s : State) w, 1 ≤ w → w ≤ 64 → s.params.memPortFaults = false →
    s.params.strictValue = false → s.offset.toNat + w ≤ 8 * s.len.toNat →
    ∃ t u, exec (.wrbits w) s = .next t ∧ exec (.rdbits w) t = .next u ∧
      t.err = .ok ∧ u.err = .ok ∧ u.result.toNat = s.data.toNat % 2 ^ w

/-- R111: `RDBITS` of a field returns the same value before and after a write of a field that does not
overlap it, even where the two share span bytes, in either mode of the value check: always with a
fault-free memory port, and with a faulting one, however the write ends, where both reads complete. -/
def Obligations.ReadsAreIndependentOfOtherFields : Prop :=
  (∀ (s : State) (f g : Word) wf wg, 1 ≤ wf → wf ≤ 64 → 1 ≤ wg → wg ≤ 64 →
    s.params.memPortFaults = false →
    f.toNat + wf ≤ g.toNat ∨ g.toNat + wg ≤ f.toNat →
    ∃ t u v, exec (.rdbits wf) (s.withOffset f) = .next t ∧
      exec (.wrbits wg) (s.withOffset g) = .next u ∧
      exec (.rdbits wf) (u.withOffset f) = .next v ∧ v.err = t.err ∧ v.result = t.result) ∧
  (∀ (d e h : PortDraws) (s : State) (f g : Word) wf wg, 1 ≤ wf → wf ≤ 64 → 1 ≤ wg → wg ≤ 64 →
    f.toNat + wf ≤ g.toNat ∨ g.toNat + wg ≤ f.toNat →
    (rdbits d wf (s.withOffset f)).err = .ok →
    (rdbits h wf ((wrbits e wg (s.withOffset g)).withOffset f)).err = .ok →
    (rdbits h wf ((wrbits e wg (s.withOffset g)).withOffset f)).result =
      (rdbits d wf (s.withOffset f)).result)

/-- R57: a span has 1 to 9 bytes, 9 exactly when `(off mod 8) + w >= 65`. -/
def Obligations.SpanHasAtMostNineBytes : Prop :=
  ∀ off w, 1 ≤ w → w ≤ 64 → 1 ≤ spanBytes off w ∧ spanBytes off w ≤ 9 ∧
    (spanBytes off w = 9 ↔ 65 ≤ off % 8 + w)

/-! ### Checksum engine commands -/

/-- R120, R121: a round shifts right and, where the bit shifted out is 1, exclusive-ors 0xEDB88320; an
entry of the table is 8 rounds from its index; the table-driven fold of a byte, whose index and shift
the spec marks as its own presumption (G1; log 15), is the LSB-first bitwise form, the byte into the low
bits and then eight rounds. -/
def Obligations.TableFoldIsTheBitwiseFold : Prop :=
  (∀ c : Word, crcRounds 0 c = c) ∧
  (∀ (k : Nat) (c : Word), crcRounds (k + 1) c =
    crcRounds k (if c.toNat % 2 = 1 then 0xEDB88320#32 ^^^ (c >>> 1) else c >>> 1)) ∧
  (∀ n : Byte, crcTable n = crcRounds 8 (n.setWidth 32)) ∧
  ∀ (c : Word) (b : Byte),
    crcFold c b = crcTable (BitVec.ofNat 8 ((c ^^^ b.setWidth 32) &&& 0xFF#32).toNat) ^^^ (c >>> 8) ∧
    crcFold c b = crcRounds 8 (c ^^^ b.setWidth 32)

/-- R125, `CRCINIT`: `CRC` becomes 0xFFFFFFFF and nothing else but `STATUS` changes; its one word.
That a completion keeps `PEND` is the model's choice (log 4). -/
def Obligations.CrcinitSetsTheInitialValue : Prop :=
  (∀ s : State, ∃ t, exec .crcinit s = .next t ∧ Completed t .ok ∧ KeepsOperands s t ∧
    SameBytes s t ∧ t.result = s.result ∧ t.crc = 0xFFFFFFFF#32) ∧ OneWord 4 .crcinit

/-- R127, `CRCBYTE`: `CRC` becomes the fold of `CRC` and `DATA[7:0]`, here in the LSB-first bitwise form
of R121 (its index and shift are the spec's own presumption, G1; log 15), and nothing else but `STATUS`
changes; its one word.
That a completion keeps `PEND` is the model's choice (log 4). -/
def Obligations.CrcbyteFoldsTheLowByteOfData : Prop :=
  (∀ s : State, ∃ t, exec .crcbyte s = .next t ∧ Completed t .ok ∧ KeepsOperands s t ∧
    SameBytes s t ∧ t.result = s.result ∧
    t.crc = crcRounds 8 (s.crc ^^^ BitVec.ofNat 32 (s.data.toNat % 256))) ∧ OneWord 5 .crcbyte

/-- R129, `CRCFINAL`: `RESULT` becomes the complement of `CRC`, zero-extended, and nothing else but
`STATUS` changes; its one word.
That a completion keeps `PEND` is the model's choice (log 4). -/
def Obligations.CrcfinalReturnsTheComplement : Prop :=
  (∀ s : State, ∃ t, exec .crcfinal s = .next t ∧ Completed t .ok ∧ KeepsOperands s t ∧
    SameBytes s t ∧ t.crc = s.crc ∧ t.result.toNat = (s.crc ^^^ 0xFFFFFFFF#32).toNat) ∧
  OneWord 6 .crcfinal

/-- R131, `CRCCOMP`, with the fold of R121 (its index and shift are the spec's own presumption, G1;
log 15): with a slot in the stream it leaves the running CRC of `M[0 .. LEN-5]` in `CRC` and its
complement in `RESULT`; without one it has no effect but `STATUS`; with a faulting memory port it does
the first or ends in `IO_ERROR` with `RESULT` kept; its one word. It changes no byte of `M`.
That a completion keeps `PEND` is the model's choice (log 4). -/
def Obligations.CrccompSumsTheStreamWithoutItsSlot : Prop :=
  (∀ s : State, s.params.memPortFaults = false → 4 ≤ s.len.toNat →
    ∃ t, exec .crccomp s = .next t ∧ Completed t .ok ∧ KeepsOperands s t ∧ SameBytes s t ∧
      t.crc = s.summed.foldl (fun c b => crcRounds 8 (c ^^^ b.setWidth 32)) 0xFFFFFFFF#32 ∧
      t.result.toNat = (t.crc ^^^ 0xFFFFFFFF#32).toNat) ∧
  (∀ s : State, s.len.toNat < 4 →
    ∃ t, exec .crccomp s = .next t ∧ OnlyStatus s t .tooSmall) ∧
  (∀ s : State, 4 ≤ s.len.toNat → ∃ t, exec .crccomp s = .next t ∧
    ((Completed t .ioError ∧ KeepsOperands s t ∧ SameBytes s t ∧ t.result = s.result) ∨
      exec .crccomp s.faultFree = .next { t with params := s.faultFree.params })) ∧
  OneWord 7 .crccomp

/-- R133, `CRCSTORE`: with a slot in the stream it writes `DATA[31:0]` into the last four bytes, most
significant first, and no other byte or register; without one it has no effect but `STATUS`; with a
faulting memory port it does the first or ends in `IO_ERROR`; its one word.
That a completion keeps `PEND` is the model's choice (log 4). -/
def Obligations.CrcstoreWritesTheSlotBigEndian : Prop :=
  (∀ s : State, s.params.memPortFaults = false → 4 ≤ s.len.toNat →
    ∃ t, exec .crcstore s = .next t ∧ Completed t .ok ∧ KeepsOperands s t ∧
      t.result = s.result ∧ t.crc = s.crc ∧ SameBytesOutside s t (s.len.toNat - 4) 4 ∧
      (t.mem.read (s.len.toNat - 4)).toNat = s.data.toNat / 2 ^ 24 % 256 ∧
      (t.mem.read (s.len.toNat - 3)).toNat = s.data.toNat / 2 ^ 16 % 256 ∧
      (t.mem.read (s.len.toNat - 2)).toNat = s.data.toNat / 2 ^ 8 % 256 ∧
      (t.mem.read (s.len.toNat - 1)).toNat = s.data.toNat % 256) ∧
  (∀ s : State, s.len.toNat < 4 →
    ∃ t, exec .crcstore s = .next t ∧ OnlyStatus s t .tooSmall) ∧
  (∀ s : State, 4 ≤ s.len.toNat → ∃ t, exec .crcstore s = .next t ∧
    (Completed t .ioError ∨
      exec .crcstore s.faultFree = .next { t with params := s.faultFree.params })) ∧
  OneWord 8 .crcstore

/-- R132, R134: `CRCCOMP` and `CRCSTORE` of a stream with a slot end in `IO_ERROR` exactly where one of
their accesses fails, whichever the draw `d` of the environment makes fail; `CRCCOMP` then keeps `RESULT`
and `M` and leaves whatever the draw gives in `CRC`, and `CRCSTORE` leaves each byte of the slot old or
new, every other byte and every register as before. `exec` takes the next draw.
That a completion keeps `PEND` is the model's choice (log 4). -/
def Obligations.ChecksumPortFaults : Prop :=
  (∀ (d : PortDraws) (s : State), 4 ≤ s.len.toNat →
    ((crccomp d s).err = .ioError ↔ s.params.memPortFaults = true ∧
      ∃ k, k + 4 < s.len.toNat ∧ d.fails k = true) ∧
    ((crcstore d s).err = .ioError ↔ s.params.memPortFaults = true ∧
      ∃ k, k < 4 ∧ d.fails k = true)) ∧
  (∀ (d : PortDraws) (s : State), (crccomp d s).err = .ioError →
    Completed (crccomp d s) .ioError ∧ KeepsOperands s (crccomp d s) ∧
    (crccomp d s).result = s.result ∧ SameBytes s (crccomp d s) ∧ (crccomp d s).crc = d.crc) ∧
  (∀ (d : PortDraws) (s u : State), (crcstore d s).err = .ioError →
    exec .crcstore s.faultFree = .next u →
    Completed (crcstore d s) .ioError ∧ KeepsOperands s (crcstore d s) ∧
    (crcstore d s).result = s.result ∧ (crcstore d s).crc = s.crc ∧
    SameBytesOutside s (crcstore d s) (s.len.toNat - 4) 4 ∧
    ∀ a, (crcstore d s).mem.read a = s.mem.read a ∨
      (crcstore d s).mem.read a = u.mem.read a) ∧
  (∀ s : State, exec .crccomp s = .next (crccomp (Config.portDraws s.draws) s) ∧
    exec .crcstore s = .next (crcstore (Config.portDraws s.draws) s))

/-- R135, `TBLRD`: `RESULT` becomes entry `DATA[7:0]` of the table of R120, zero-extended, and nothing
else but `STATUS` changes; the entries R120 lists; its one word.
That a completion keeps `PEND` is the model's choice (log 4). -/
def Obligations.TblrdReturnsATableEntry : Prop :=
  (∀ s : State, ∃ t, exec .tblrd s = .next t ∧ Completed t .ok ∧ KeepsOperands s t ∧
    SameBytes s t ∧ t.crc = s.crc ∧
    t.result.toNat = (crcRounds 8 (BitVec.ofNat 32 (s.data.toNat % 256))).toNat) ∧
  (∀ (s : State) (n v : Nat), s.data.toNat % 256 = n →
    (n, v) ∈ [(0x00, 0x00000000), (0x01, 0x77073096), (0x02, 0xEE0E612C), (0x03, 0x990951BA),
      (0x04, 0x076DC419), (0x08, 0x0EDB8832), (0x10, 0x1DB71064), (0x40, 0x76DC4190),
      (0x80, 0xEDB88320), (0xFF, 0x2D02EF8D)] →
    ∃ t, exec .tblrd s = .next t ∧ t.result.toNat = v) ∧
  OneWord 9 .tblrd

/-- R136: `CRCINIT`, a `CRCBYTE` for each byte of the stream but the slot, and `CRCFINAL` leave `CRC` and
`RESULT` as `CRCCOMP` does, with the CRC-32 of those bytes in `RESULT`. -/
def Obligations.FoldingByCommandsIsCrccomp : Prop :=
  ∀ s : State, s.params.memPortFaults = false → 4 ≤ s.len.toNat →
    ∃ t u v x, exec .crcinit s = .next t ∧ foldCommands s.summed t = .next u ∧
      exec .crcfinal u = .next v ∧ exec .crccomp s = .next x ∧
      v.crc = x.crc ∧ v.result = x.result ∧ v.result.toNat = (crc32 s.summed).toNat

/-- R137: after `CRCCOMP`, a copy of `RESULT[31:0]` into `DATA` and `CRCSTORE`, the slot holds the CRC of
the bytes before it: `RDU32` of the slot returns it, and so does a second `CRCCOMP`. -/
def Obligations.StoredChecksumIsConsistent : Prop :=
  ∀ (s : State) (o : Word), s.params.memPortFaults = false → 4 ≤ s.len.toNat →
    o.toNat = s.len.toNat - 4 →
    ∃ t u v x, exec .crccomp s = .next t ∧
      exec .crcstore (t.withData ((t.result.setWidth 32).setWidth 64)) = .next u ∧
      exec .rdu32 (u.withOffset o) = .next v ∧ exec .crccomp u = .next x ∧
      t.err = .ok ∧ u.err = .ok ∧ v.err = .ok ∧ x.err = .ok ∧
      t.result.toNat = (crc32 s.summed).toNat ∧ v.result = t.result ∧ x.result = t.result

/-- R138: what `CRCCOMP` returns depends only on `LEN` and on `M[0 .. LEN-5]`: always with a fault-free
memory port, and with a faulting one where it completes. -/
def Obligations.CrccompIgnoresTheSlot : Prop :=
  (∀ s r : State, s.params.memPortFaults = false → r.params.memPortFaults = false →
    4 ≤ s.len.toNat → r.len = s.len →
    (∀ a, a + 4 < s.len.toNat → r.mem.read a = s.mem.read a) →
    ∃ t u, exec .crccomp s = .next t ∧ exec .crccomp r = .next u ∧
      t.err = .ok ∧ u.err = .ok ∧ u.result = t.result ∧ u.crc = t.crc) ∧
  (∀ (d e : PortDraws) (s r : State), r.len = s.len →
    (∀ a, a + 4 < s.len.toNat → r.mem.read a = s.mem.read a) →
    (crccomp d s).err = .ok → (crccomp e r).err = .ok →
    (crccomp e r).result = (crccomp d s).result ∧ (crccomp e r).crc = (crccomp d s).crc)

/-! ### All commands -/

/-- R150: every command completes with exactly one status code, and which one; the code numbers; and an
illegal word's. -/
def Obligations.StatusCodesAndTheirCauses : Prop :=
  (∀ (i : Instr) (s : State), i.wellFormed = true →
    ∃ t, exec i s = .next t ∧ t.busy = false ∧ t.done = true ∧
      (t.err = .outOfRange ↔
        (∃ w, i = .rdbits w ∧ 8 * s.len.toNat < s.offset.toNat + w) ∨
        (∃ w, i = .wrbits w ∧ 1 ≤ w ∧ 8 * s.len.toNat < s.offset.toNat + w) ∨
        (i = .rdu32 ∧ s.len.toNat < s.offset.toNat + 4)) ∧
      (t.err = .tooSmall ↔ (i = .crccomp ∨ i = .crcstore) ∧ s.len.toNat < 4) ∧
      (t.err = .valueRange ↔ ∃ w, i = .wrbits w ∧ 1 ≤ w ∧
        s.offset.toNat + w ≤ 8 * s.len.toNat ∧ s.params.strictValue = true ∧ w < 64 ∧
        2 ^ w ≤ s.data.toNat) ∧
      (s.params.memPortFaults = false ∨ i = .wrbits 0 ∨ i = .crcinit ∨ i = .crcbyte ∨
        i = .crcfinal ∨ i = .tblrd → t.err ≠ .ioError) ∧
      t.err ≠ .illegal) ∧
  (∀ (s : State) e rest, s.busy = true → decode s.pend = .error e →
    s.inputs = [] ∨ s.inputs = .block :: rest →
    ∃ t, step s = .next t ∧ t.busy = false ∧ t.done = true ∧ t.err = .illegal) ∧
  (Status.ok.code = 0#4 ∧ Status.outOfRange.code = 1#4 ∧ Status.tooSmall.code = 2#4 ∧
    Status.ioError.code = 3#4 ∧ Status.illegal.code = 4#4 ∧ Status.valueRange.code = 5#4)

/-- R156: where several errors are met the code is the first of `ILLEGAL`, then `OUT_OF_RANGE` or
`TOO_SMALL`, then `VALUE_RANGE`, then `IO_ERROR`. -/
def Obligations.ErrorsAreReportedInOrder : Prop :=
  (∀ (s : State) rest, s.busy = true → IllegalBits s.pend →
    s.inputs = [] ∨ s.inputs = .block :: rest →
    ∃ t, step s = .next t ∧ t.err = .illegal) ∧
  (∀ (s : State) w, 1 ≤ w → w ≤ 64 → 8 * s.len.toNat < s.offset.toNat + w →
    ∃ t u, exec (.rdbits w) s = .next t ∧ t.err = .outOfRange ∧
      exec (.wrbits w) s = .next u ∧ u.err = .outOfRange) ∧
  (∀ s : State, s.len.toNat < s.offset.toNat + 4 →
    ∃ t, exec .rdu32 s = .next t ∧ t.err = .outOfRange) ∧
  (∀ s : State, s.len.toNat < 4 →
    ∃ t u, exec .crccomp s = .next t ∧ t.err = .tooSmall ∧
      exec .crcstore s = .next u ∧ u.err = .tooSmall) ∧
  (∀ (s : State) w, 1 ≤ w → w ≤ 64 → s.offset.toNat + w ≤ 8 * s.len.toNat → s.Rejects w →
    ∃ t, exec (.wrbits w) s = .next t ∧ t.err = .valueRange)

/-- R151, R153: `OUT_OF_RANGE`, `TOO_SMALL` and `VALUE_RANGE` leave every state but `STATUS` as it was.
That a completion keeps `PEND` is the model's choice (log 4). -/
def Obligations.CheckedErrorsArePrecise : Prop :=
  ∀ (i : Instr) (s t : State) c, exec i s = .next t → t.err = c →
    c = .outOfRange ∨ c = .tooSmall ∨ c = .valueRange → OnlyStatus s t c

/-- U2: every choice of which bytes of a store land is the outcome of some draw, for a `WRBITS` or a
`CRCSTORE` that fails (that the choice does not depend on which write failed is log 9) and for a command
that a reset aborts; the step of a reset is `resetBlock` at the next draw. -/
def Obligations.EveryPartialStoreIsAdmitted : Prop :=
  (∀ (s : State) w (land : Nat → Bool), 1 ≤ w → w ≤ 64 → s.params.memPortFaults = true →
    s.offset.toNat + w ≤ 8 * s.len.toNat → ¬ s.Rejects w →
    ∃ d : PortDraws, (wrbits d w s).err = .ioError ∧
      ∀ u, exec (.wrbits w) s.faultFree = .next u → ∀ k, k < spanBytes s.offset.toNat w →
        (wrbits d w s).mem.read (spanFirst s.offset.toNat + k) =
          if land k then u.mem.read (spanFirst s.offset.toNat + k)
          else s.mem.read (spanFirst s.offset.toNat + k)) ∧
  (∀ (s : State) (land : Nat → Bool), s.params.memPortFaults = true → 4 ≤ s.len.toNat →
    ∃ d : PortDraws, (crcstore d s).err = .ioError ∧
      ∀ u, exec .crcstore s.faultFree = .next u → ∀ k, k < 4 →
        (crcstore d s).mem.read (s.len.toNat - 4 + k) =
          if land k then u.mem.read (s.len.toNat - 4 + k)
          else s.mem.read (s.len.toNat - 4 + k)) ∧
  (∀ (s : State) i (landAt : Nat → Bool), s.busy = true → decode s.pend = .ok i →
    ∃ d : PortDraws, ResetRegisters (resetBlock d s) ∧
      ∀ u, exec i s.faultFree = .next u → ∀ a,
        (resetBlock d s).mem.read a = if landAt a then u.mem.read a else s.mem.read a) ∧
  (∀ (s : State) rest, s.inputs = .reset :: rest →
    step s = .next (resetBlock (Config.portDraws s.draws) (s.withInputs rest)))

/-- R77, R59: what each command may write: no operand register; `CRC` only by `CRCINIT`, `CRCBYTE`,
`CRCCOMP`; `RESULT` only by the five commands that return a value, and only with `OK`; bytes of `M` only
by `WRBITS`, in its span, and `CRCSTORE`, in the slot.
That a completion keeps `PEND` is the model's choice (log 4). -/
def Obligations.CommandsWriteOnlyTheirRegisters : Prop :=
  ∀ (i : Instr) (s t : State), exec i s = .next t →
    KeepsOperands s t ∧
    (i ≠ .crcinit → i ≠ .crcbyte → i ≠ .crccomp → t.crc = s.crc) ∧
    ((∃ w, i = .wrbits w) ∨ i = .crcinit ∨ i = .crcbyte ∨ i = .crcstore ∨ t.err ≠ .ok →
      t.result = s.result) ∧
    ((∀ w, i ≠ .wrbits w) → i ≠ .crcstore → SameBytes s t) ∧
    (∀ w, i = .wrbits w →
      SameBytesOutside s t (spanFirst s.offset.toNat) (spanBytes s.offset.toNat w)) ∧
    (i = .crcstore → SameBytesOutside s t (s.len.toNat - 4) 4)

/-- R21: bytes at or above `LEN` are never read or written by any command: two memories that agree
below `LEN` give the same results and the same bytes below it, and bytes above it stay.
The two runs are compared under the same draw of the memory port, which both take from the same counter:
with a faulting port that is the model's choice (log 7), as U1 to U3 leave each run's draws to its
environment. -/
def Obligations.BytesAboveLenAreUntouched : Prop :=
  ∀ (i : Instr) (s : State) (m : Memory), i.wellFormed = true →
    (∀ a, a < s.len.toNat → m.read a = s.mem.read a) →
    ∃ t u, exec i s = .next t ∧ exec i (s.withMem m) = .next u ∧
      u.result = t.result ∧ u.crc = t.crc ∧ u.err = t.err ∧
      (∀ a, a < s.len.toNat → u.mem.read a = t.mem.read a) ∧
      (∀ a, s.len.toNat ≤ a → t.mem.read a = s.mem.read a ∧ u.mem.read a = m.read a)

/-- R184: with `LEN` still 0 every command is legal and completes: `OUT_OF_RANGE` for the field
accesses, `TOO_SMALL` for the stream's checksum commands, `OK` for `WRBITS 0` and for the commands that
touch no memory. -/
def Obligations.CommandsOnTheEmptyStream : Prop :=
  ∀ (i : Instr) (s : State), i.wellFormed = true → s.len = 0#32 →
    ∃ t, exec i s = .next t ∧ t.busy = false ∧ t.done = true ∧
      (∀ w, i = .rdbits w ∨ (i = .wrbits w ∧ w ≠ 0) → t.err = .outOfRange) ∧
      (i = .rdu32 → t.err = .outOfRange) ∧
      (i = .crccomp ∨ i = .crcstore → t.err = .tooSmall) ∧
      (i = .wrbits 0 ∨ i = .crcinit ∨ i = .crcbyte ∨ i = .crcfinal ∨ i = .tblrd → t.err = .ok)
end

