-- ==== Sys2Proof/Laws/Memory.lean ====
section
/-! SUPPORT. What reading and storing bytes of `M` do: read after write, the canonical form, and what
a store of several bytes, all or some of which land, leaves in each byte. -/

namespace Sys2Proof.Machine

/-! ### One byte -/

/-- What is listed after a write, whatever the form of the list. -/
theorem lookup_store (m : Memory) (a b : Nat) (v : Byte) :
    (m.store a v).lookup b = if a = b then some v else m.lookup b := by
  induction m with
  | nil => simp [Memory.store, Memory.lookup]
  | cons c rest ih =>
    obtain ⟨k, x⟩ := c
    simp only [Memory.store]
    split
    · simp [Memory.lookup]
    · split
      · subst_vars; simp only [Memory.lookup]; split <;> rfl
      · simp only [Memory.lookup, ih]; split <;> split <;> simp_all

/-- Read after write: the byte written reads as written, every other byte as before. -/
theorem read_store (m : Memory) (a b : Nat) (v : Byte) :
    (m.store a v).read b = if a = b then v else m.read b := by
  simp only [Memory.read, lookup_store]; split <;> rfl

theorem above_store {m : Memory} {a b : Nat} (v : Byte) (hab : b < a)
    (h : Memory.above b m = true) : Memory.above b (m.store a v) = true := by
  induction m with
  | nil => simp [Memory.store, Memory.above, hab]
  | cons c rest ih =>
    obtain ⟨k, x⟩ := c
    simp only [Memory.above, Bool.and_eq_true, decide_eq_true_eq] at h
    simp only [Memory.store]
    split
    · simp [Memory.above, hab, h]
    · split
      · simp [Memory.above, hab, h]
      · simp [Memory.above, h, ih]

theorem above_mono {m : Memory} {a b : Nat} (hab : a < b) (h : Memory.above b m = true) :
    Memory.above a m = true := by
  induction m with
  | nil => rfl
  | cons c rest ih =>
    obtain ⟨k, x⟩ := c
    simp only [Memory.above, Bool.and_eq_true, decide_eq_true_eq] at h ⊢
    exact ⟨by omega, ih h.2⟩

/-- A write keeps the canonical form. -/
theorem store_wf {m : Memory} (a : Nat) (v : Byte) (h : m.wf = true) :
    (m.store a v).wf = true := by
  induction m with
  | nil => rfl
  | cons c rest ih =>
    obtain ⟨k, x⟩ := c
    simp only [Memory.wf, Bool.and_eq_true] at h
    simp only [Memory.store]
    split
    · rename_i hak
      simp [Memory.wf, Memory.above, h, above_mono hak h.1, hak]
    · split
      · subst_vars; simp [Memory.wf, h]
      · simp only [Memory.wf, Bool.and_eq_true]
        exact ⟨above_store v (by omega) h.1, ih h.2⟩

/-- A write of a byte that exists keeps every listed byte one that exists. -/
theorem store_below {m : Memory} {n a : Nat} (v : Byte) (ha : a < n)
    (h : Memory.below n m = true) : Memory.below n (m.store a v) = true := by
  induction m with
  | nil => simp [Memory.store, Memory.below, ha]
  | cons c rest ih =>
    obtain ⟨k, x⟩ := c
    simp only [Memory.below, Bool.and_eq_true, decide_eq_true_eq] at h
    simp only [Memory.store]
    split
    · simp [Memory.below, ha, h]
    · split
      · simp [Memory.below, ha, h]
      · simp [Memory.below, h, ih]

/-! ### Several bytes, all or some of which land -/

/-- Everything a store of several bytes does: a byte of its target holds its new value where it
landed and its old one elsewhere; every other byte is as before. -/
theorem read_storeSome (land : Nat → Bool) (m : Memory) (a k : Nat) (bytes : List Byte) (b : Nat) :
    (m.storeSome land a k bytes).read b =
      if a + k ≤ b ∧ b < a + k + bytes.length ∧ land (b - a) = true then bytes.getD (b - a - k) 0#8
      else m.read b := by
  induction bytes generalizing m k with
  | nil => simp only [Memory.storeSome, List.length_nil]; rw [if_neg (by omega)]
  | cons x rest ih =>
    simp only [Memory.storeSome, ih, List.length_cons]
    by_cases hb : a + k = b
    · subst hb
      rw [if_neg (by omega)]
      simp only [Nat.add_sub_cancel_left, Nat.sub_self, List.getD_cons_zero, le_refl, true_and]
      cases hl : land k <;> simp [read_store]
    · have hm : (if land k then m.store (a + k) x else m).read b = m.read b := by
        split
        · rw [read_store, if_neg hb]
        · rfl
      rw [hm]
      by_cases hlt : a + k < b
      · have e : b - a - k = (b - a - (k + 1)) + 1 := by omega
        rw [e, List.getD_cons_succ]
        by_cases hl : land (b - a) = true
        · by_cases hu : b < a + k + (rest.length + 1)
          · rw [if_pos ⟨by omega, by omega, hl⟩, if_pos ⟨by omega, by omega, hl⟩]
          · rw [if_neg (fun h => hu (by omega)), if_neg (fun h => hu h.2.1)]
        · rw [if_neg (fun h => hl h.2.2), if_neg (fun h => hl h.2.2)]
      · rw [if_neg (fun h => hlt (by omega)), if_neg (fun h => hlt (by omega))]

/-- A store whose every byte lands. -/
theorem read_storeAll (m : Memory) (a : Nat) (bytes : List Byte) (b : Nat) :
    (m.storeSome allLand a 0 bytes).read b =
      if a ≤ b ∧ b < a + bytes.length then bytes.getD (b - a) 0#8 else m.read b := by
  rw [read_storeSome]; simp [allLand]

/-- A byte outside the target of a store is as before. -/
theorem read_storeSome_outside (land : Nat → Bool) (m : Memory) (a : Nat) (bytes : List Byte)
    (b : Nat) (h : b < a ∨ a + bytes.length ≤ b) :
    (m.storeSome land a 0 bytes).read b = m.read b := by
  rw [read_storeSome, if_neg (by omega)]

/-- Byte `k` of the target of a store. -/
theorem read_storeSome_inside (land : Nat → Bool) (m : Memory) (a : Nat) (bytes : List Byte)
    (k : Nat) (h : k < bytes.length) :
    (m.storeSome land a 0 bytes).read (a + k) =
      if land k then bytes.getD k 0#8 else m.read (a + k) := by
  rw [read_storeSome]
  simp only [Nat.add_zero, Nat.add_sub_cancel_left, Nat.sub_zero]
  by_cases hl : land k = true
  · rw [if_pos ⟨by omega, by omega, hl⟩, if_pos hl]
  · rw [if_neg (fun h => hl h.2.2), if_neg hl]

/-- A store of several bytes keeps the canonical form. -/
theorem storeSome_wf (land : Nat → Bool) {m : Memory} (a k : Nat) (bytes : List Byte)
    (h : m.wf = true) : (m.storeSome land a k bytes).wf = true := by
  induction bytes generalizing m k with
  | nil => exact h
  | cons x rest ih =>
    refine ih _ ?_
    split
    · exact store_wf _ _ h
    · exact h

/-- A store of bytes that exist keeps every listed byte one that exists. -/
theorem storeSome_below (land : Nat → Bool) {m : Memory} {n : Nat} (a k : Nat) (bytes : List Byte)
    (hb : a + k + bytes.length ≤ n) (h : m.below n = true) :
    (m.storeSome land a k bytes).below n = true := by
  induction bytes generalizing m k with
  | nil => exact h
  | cons x rest ih =>
    simp only [List.length_cons] at hb
    refine ih (k + 1) (by omega) ?_
    split
    · exact store_below _ (by omega) h
    · exact h

/-! ### A span of bytes -/

@[simp] theorem readSpan_length (m : Memory) (a n : Nat) : (m.readSpan a n).length = n := by
  simp [Memory.readSpan]

theorem readSpan_getD (m : Memory) (a n k : Nat) (h : k < n) :
    (m.readSpan a n).getD k 0#8 = m.read (a + k) := by
  simp [Memory.readSpan, List.getD_eq_getElem?_getD, h]

/-- A span depends only on its own bytes. -/
theorem readSpan_congr {m m' : Memory} {a n : Nat}
    (h : ∀ b, a ≤ b → b < a + n → m'.read b = m.read b) : m'.readSpan a n = m.readSpan a n := by
  apply List.map_congr_left
  intro k hk
  exact h _ (by omega) (by have := List.mem_range.mp hk; omega)

end Sys2Proof.Machine
end

