-- ==== Sys2Proof/Laws/Bits.lean ====
section
/-! SUPPORT. Bits of bytes, buffers and fields: what reading and merging a field do, bit by bit. -/

namespace Sys2Proof.Machine

/-- Setting a bit sets that bit and no other. -/
theorem getLsbD_setByteBit (b : Byte) (j k : Nat) (v : Bool) (hj : j < 8) (hk : k < 8) :
    (setByteBit b j v).getLsbD k = if k = j then v else b.getLsbD k := by
  unfold setByteBit
  by_cases hkj : k = j
  · subst hkj; cases v <;> simp [hk]
  · rw [if_neg hkj]
    by_cases hlt : k < j
    · simp [hk, hlt]
    · have h1 : k - j ≠ 0 := by omega
      simp [hk, hlt, h1]

/-- Setting a bit of a buffer keeps its length. -/
@[simp] theorem setBufBit_length (buf : List Byte) (q : Nat) (v : Bool) :
    (setBufBit buf q v).length = buf.length := by
  simp [setBufBit]

/-- Setting a bit of a buffer sets that bit and no other. -/
theorem bufBit_setBufBit (buf : List Byte) (q p : Nat) (v : Bool) (hq : q < 8 * buf.length) :
    bufBit (setBufBit buf q v) p = if p = q then v else bufBit buf p := by
  unfold bufBit setBufBit
  by_cases hby : p / 8 = q / 8
  · rw [hby]
    have hlen : q / 8 < buf.length := by omega
    simp only [List.getD_eq_getElem?_getD, List.getElem?_modify_eq, List.getElem?_eq_getElem hlen,
      Option.map_eq_map, Option.map_some, Option.getD_some]
    rw [getLsbD_setByteBit _ _ _ _ (by omega) (by omega)]
    by_cases hpq : p = q
    · subst hpq; simp
    · rw [if_neg hpq, if_neg (by omega)]
  · have hne : q / 8 ≠ p / 8 := fun h => hby h.symm
    have hpq : p ≠ q := fun h => hby (by rw [h])
    simp [List.getD_eq_getElem?_getD, hne, hpq]

/-- The loop of `mergeBuf` after `n` of its rounds. -/
def mergeRounds (buf : List Byte) (r w n : Nat) (val : DWord) : List Byte :=
  (List.range n).foldl (fun bf i => setBufBit bf (r + i) (val.getLsbD (w - 1 - i))) buf

theorem mergeRounds_succ (buf : List Byte) (r w n : Nat) (val : DWord) :
    mergeRounds buf r w (n + 1) val =
      setBufBit (mergeRounds buf r w n val) (r + n) (val.getLsbD (w - 1 - n)) := by
  simp [mergeRounds, List.range_succ]

@[simp] theorem mergeRounds_length (buf : List Byte) (r w n : Nat) (val : DWord) :
    (mergeRounds buf r w n val).length = buf.length := by
  induction n with
  | zero => rfl
  | succ n ih => rw [mergeRounds_succ, setBufBit_length, ih]

theorem bufBit_mergeRounds (buf : List Byte) (r w n : Nat) (val : DWord) (p : Nat)
    (h : r + n ≤ 8 * buf.length) :
    bufBit (mergeRounds buf r w n val) p =
      if r ≤ p ∧ p < r + n then val.getLsbD (w - 1 - (p - r)) else bufBit buf p := by
  induction n with
  | zero => rw [if_neg (by omega)]; rfl
  | succ n ih =>
    rw [mergeRounds_succ, bufBit_setBufBit _ _ _ _ (by rw [mergeRounds_length]; omega),
      ih (by omega)]
    by_cases hp : p = r + n
    · subst hp; rw [if_pos rfl, if_pos (by omega)]; congr 2; omega
    · rw [if_neg hp]
      by_cases hin : r ≤ p ∧ p < r + n
      · rw [if_pos hin, if_pos (by omega)]
      · rw [if_neg hin, if_neg (by omega)]

@[simp] theorem mergeBuf_length (buf : List Byte) (r w : Nat) (val : DWord) :
    (mergeBuf buf r w val).length = buf.length :=
  mergeRounds_length buf r w w val

/-- Merging a field writes its bits, the first from the most significant of the `w`, and no other. -/
theorem bufBit_mergeBuf (buf : List Byte) (r w : Nat) (val : DWord) (p : Nat)
    (h : r + w ≤ 8 * buf.length) :
    bufBit (mergeBuf buf r w val) p =
      if r ≤ p ∧ p < r + w then val.getLsbD (w - 1 - (p - r)) else bufBit buf p :=
  bufBit_mergeRounds buf r w w val p h

theorem fieldOfBuf_succ (buf : List Byte) (r w : Nat) :
    fieldOfBuf buf r (w + 1) =
      (fieldOfBuf buf r w <<< 1) ||| (BitVec.ofBool (bufBit buf (r + w))).setWidth 64 := by
  simp [fieldOfBuf, List.range_succ]

/-- A field read is right-aligned, its first bit the most significant of the `w`, zero above. -/
theorem getLsbD_fieldOfBuf (buf : List Byte) (r w j : Nat) (hj : j < 64) :
    (fieldOfBuf buf r w).getLsbD j = (decide (j < w) && bufBit buf (r + (w - 1 - j))) := by
  induction w generalizing j with
  | zero => simp [fieldOfBuf]
  | succ w ih =>
    rw [fieldOfBuf_succ]
    cases j with
    | zero => simp
    | succ j =>
      have e : w + 1 - 1 - (j + 1) = w - 1 - j := by omega
      rw [e]
      simp only [BitVec.getLsbD_or, BitVec.getLsbD_shiftLeft, BitVec.getLsbD_setWidth,
        BitVec.getLsbD_ofBool, Nat.add_sub_cancel, ih j (by omega)]
      simp [hj]

/-- Truncation keeps the low `w` bits. -/
theorem getLsbD_truncTo (w : Nat) (v : DWord) (j : Nat) :
    (truncTo w v).getLsbD j = (decide (j < w) && v.getLsbD j) := by
  by_cases hj : j < 64
  · unfold truncTo
    rw [BitVec.getLsbD_ofNat, Nat.testBit_mod_two_pow, BitVec.testBit_toNat]
    simp only [hj, decide_true, Bool.true_and]
  · simp [BitVec.getLsbD_of_ge _ _ (Nat.not_lt.mp hj)]

/-- A write of a half of a 64-bit register sets that half and keeps the other (R26). -/
theorem halves_setLowHalf (d : DWord) (v : Word) :
    (setLowHalf d v).extractLsb' 0 32 = v ∧
      (setLowHalf d v).extractLsb' 32 32 = d.extractLsb' 32 32 := by
  constructor <;> 
    (apply BitVec.eq_of_getLsbD_eq
     intro j hj
     have h1 : j < 64 := by omega
     have h2 : 32 + j < 64 := by omega
     simp [setLowHalf, hj, h1, h2])

theorem halves_setHighHalf (d : DWord) (v : Word) :
    (setHighHalf d v).extractLsb' 32 32 = v ∧
      (setHighHalf d v).extractLsb' 0 32 = d.extractLsb' 0 32 := by
  constructor <;> 
    (apply BitVec.eq_of_getLsbD_eq
     intro j hj
     have h1 : j < 64 := by omega
     have h2 : 32 + j < 64 := by omega
     simp [setHighHalf, hj, h1, h2])

/-- Four bytes as a big-endian number, by their values (R108). -/
theorem toNat_wordOfBytes (a b c d : Byte) :
    (wordOfBytes a b c d).toNat =
      2 ^ 24 * a.toNat + 2 ^ 16 * b.toNat + 2 ^ 8 * c.toNat + d.toNat := by
  have ha := a.isLt
  have hb := b.isLt
  have hc := c.isLt
  have hd := d.isLt
  have sh (x : Byte) (k : Nat) (hk : k ≤ 24) : (x.setWidth 64 <<< k).toNat = x.toNat <<< k := by
    have hx := x.isLt
    have h24 : (2 : Nat) ^ k ≤ 2 ^ 24 := Nat.pow_le_pow_right (by omega) hk
    have hm : x.toNat * 2 ^ k < 256 * 2 ^ 24 :=
      Nat.lt_of_lt_of_le (Nat.mul_lt_mul_of_pos_right hx (by positivity)) (by omega)
    rw [BitVec.toNat_shiftLeft, BitVec.toNat_setWidth, Nat.shiftLeft_eq,
      Nat.mod_eq_of_lt (by omega : x.toNat < 2 ^ 64), Nat.mod_eq_of_lt (by omega), Nat.shiftLeft_eq]
  have join (x y i : Nat) (hy : y < 2 ^ i) : (x * 2 ^ i) ||| y = x * 2 ^ i + y := by
    rw [← Nat.shiftLeft_eq, Nat.shiftLeft_add_eq_or_of_lt hy]
  have e1 : a.toNat <<< 24 ||| b.toNat <<< 16 = (a.toNat * 256 + b.toNat) * 2 ^ 16 := by
    rw [Nat.shiftLeft_eq, Nat.shiftLeft_eq, join _ _ _ (by omega)]; omega
  have e2 : (a.toNat * 256 + b.toNat) * 2 ^ 16 ||| c.toNat <<< 8 =
      ((a.toNat * 256 + b.toNat) * 256 + c.toNat) * 2 ^ 8 := by
    rw [Nat.shiftLeft_eq, join _ _ _ (by omega)]; omega
  unfold wordOfBytes
  rw [BitVec.toNat_or, BitVec.toNat_or, BitVec.toNat_or, sh _ _ (by omega), sh _ _ (by omega),
    sh _ _ (by omega), e1, e2, BitVec.toNat_setWidth, Nat.mod_eq_of_lt (by omega),
    join _ _ _ (by omega)]
  omega

/-- A bit of a span is a bit of the stream (R10). -/
theorem bufBit_readSpan (m : Memory) (off n q : Nat) (h : off % 8 + q < 8 * n) :
    bufBit (m.readSpan (spanFirst off) n) (off % 8 + q) = m.streamBit (off + q) := by
  unfold bufBit Memory.streamBit spanFirst
  rw [readSpan_getD _ _ _ _ (by omega)]
  have h1 : off / 8 + (off % 8 + q) / 8 = (off + q) / 8 := by omega
  have h2 : (off % 8 + q) % 8 = (off + q) % 8 := by omega
  rw [h1, h2]

/-- The bits of a field fit in its span (R100). -/
theorem field_fits_span (off w : Nat) : off % 8 + w ≤ 8 * spanBytes off w := by
  unfold spanBytes; omega

/-- An in-range field's span lies inside the stream (R100). -/
theorem span_in_stream {off w n : Nat} (h : off + w ≤ 8 * n) :
    spanFirst off + spanBytes off w ≤ n := by
  unfold spanFirst spanBytes; omega

/-- The value of a field, bit by bit (R101). -/
theorem getLsbD_field (s : State) (off w j : Nat) (hj : j < 64) :
    (s.field off w).getLsbD j = (decide (j < w) && s.mem.streamBit (off + (w - 1 - j))) := by
  unfold State.field State.span spanShift
  rw [getLsbD_fieldOfBuf _ _ _ _ hj]
  by_cases hjw : j < w
  · have := field_fits_span off w
    rw [bufBit_readSpan _ _ _ _ (by omega)]
  · simp [hjw]

@[simp] theorem merged_length (s : State) (off w : Nat) :
    (s.merged off w).length = spanBytes off w := by
  simp [State.merged, State.span]

/-- The bits of a merged span: the field from `DATA`, every other bit as in `M` (R103, R106). -/
theorem bufBit_merged (s : State) (off w q : Nat) (hq : off % 8 + q < 8 * spanBytes off w) :
    bufBit (s.merged off w) (off % 8 + q) =
      if q < w then s.data.getLsbD (w - 1 - q) else s.mem.streamBit (off + q) := by
  unfold State.merged State.span spanShift
  rw [bufBit_mergeBuf _ _ _ _ _ (by simpa using field_fits_span off w)]
  by_cases h : q < w
  · have e : w - 1 - (off % 8 + q - off % 8) = w - 1 - q := by omega
    rw [if_pos (by omega), if_pos h, e, getLsbD_truncTo]
    simp [show w - 1 - q < w by omega]
  · rw [if_neg (by omega), if_neg h, bufBit_readSpan _ _ _ _ hq]

/-- The bits of a merged span before the field are those of `M` (R106). -/
theorem bufBit_merged_before (s : State) (off w q : Nat) (hq : q < off % 8) :
    bufBit (s.merged off w) q = s.mem.streamBit (8 * spanFirst off + q) := by
  unfold State.merged State.span spanShift
  rw [bufBit_mergeBuf _ _ _ _ _ (by simpa using field_fits_span off w), if_neg (by omega)]
  have := bufBit_readSpan s.mem (8 * spanFirst off) (spanBytes off w) q
    (by unfold spanBytes; omega)
  simpa [spanFirst] using this

/-- Every bit of `M` after the span of a field has been written back (R106). -/
theorem streamBit_store_merged (s : State) (off w p : Nat) :
    (s.mem.storeSome allLand (spanFirst off) 0 (s.merged off w)).streamBit p =
      if off ≤ p ∧ p < off + w then s.data.getLsbD (w - 1 - (p - off)) else s.mem.streamBit p := by
  have hfit := field_fits_span off w
  by_cases hin : spanFirst off ≤ p / 8 ∧ p / 8 < spanFirst off + spanBytes off w
  · have hread : (s.mem.storeSome allLand (spanFirst off) 0 (s.merged off w)).streamBit p =
        bufBit (s.merged off w) (p - 8 * spanFirst off) := by
      unfold Memory.streamBit bufBit
      rw [read_storeAll, merged_length, if_pos hin]
      have h1 : (p - 8 * spanFirst off) / 8 = p / 8 - spanFirst off := by omega
      have h2 : (p - 8 * spanFirst off) % 8 = p % 8 := by omega
      rw [h1, h2]
    rw [hread]
    unfold spanFirst at *
    by_cases hb : p < off
    · rw [bufBit_merged_before _ _ _ _ (by omega), if_neg (by omega)]
      congr 1; unfold spanFirst; omega
    · have e : p - 8 * (off / 8) = off % 8 + (p - off) := by omega
      have e2 : off + (p - off) = p := by omega
      rw [e, bufBit_merged _ _ _ _ (by omega), e2]
      by_cases hpw : p - off < w
      · rw [if_pos hpw, if_pos (by omega)]
      · rw [if_neg hpw, if_neg (by omega)]
  · have hread : (s.mem.storeSome allLand (spanFirst off) 0 (s.merged off w)).streamBit p =
        s.mem.streamBit p := by
      unfold Memory.streamBit
      rw [read_storeAll, merged_length, if_neg hin]
    rw [hread, if_neg]
    unfold spanFirst at hin
    omega

end Sys2Proof.Machine
end

