-- ==== Sys2Proof/Laws/State.lean ====
section
/-! SUPPORT. One lemma per field per update of the state, so that no proof unfolds a record update. -/

namespace Sys2Proof.Machine

variable (s : State)

/-! ### `State.withMem` -/

@[simp] theorem withMem_mem (m : Memory) : (s.withMem m).mem = m := rfl
@[simp] theorem withMem_offset (m : Memory) : (s.withMem m).offset = s.offset := rfl
@[simp] theorem withMem_len (m : Memory) : (s.withMem m).len = s.len := rfl
@[simp] theorem withMem_data (m : Memory) : (s.withMem m).data = s.data := rfl
@[simp] theorem withMem_result (m : Memory) : (s.withMem m).result = s.result := rfl
@[simp] theorem withMem_crc (m : Memory) : (s.withMem m).crc = s.crc := rfl
@[simp] theorem withMem_busy (m : Memory) : (s.withMem m).busy = s.busy := rfl
@[simp] theorem withMem_done (m : Memory) : (s.withMem m).done = s.done := rfl
@[simp] theorem withMem_err (m : Memory) : (s.withMem m).err = s.err := rfl
@[simp] theorem withMem_pend (m : Memory) : (s.withMem m).pend = s.pend := rfl
@[simp] theorem withMem_params (m : Memory) : (s.withMem m).params = s.params := rfl
@[simp] theorem withMem_inputs (m : Memory) : (s.withMem m).inputs = s.inputs := rfl
@[simp] theorem withMem_busData (m : Memory) : (s.withMem m).busData = s.busData := rfl
@[simp] theorem withMem_draws (m : Memory) : (s.withMem m).draws = s.draws := rfl

/-! ### `State.withOffset` -/

@[simp] theorem withOffset_mem (v : Word) : (s.withOffset v).mem = s.mem := rfl
@[simp] theorem withOffset_offset (v : Word) : (s.withOffset v).offset = v := rfl
@[simp] theorem withOffset_len (v : Word) : (s.withOffset v).len = s.len := rfl
@[simp] theorem withOffset_data (v : Word) : (s.withOffset v).data = s.data := rfl
@[simp] theorem withOffset_result (v : Word) : (s.withOffset v).result = s.result := rfl
@[simp] theorem withOffset_crc (v : Word) : (s.withOffset v).crc = s.crc := rfl
@[simp] theorem withOffset_busy (v : Word) : (s.withOffset v).busy = s.busy := rfl
@[simp] theorem withOffset_done (v : Word) : (s.withOffset v).done = s.done := rfl
@[simp] theorem withOffset_err (v : Word) : (s.withOffset v).err = s.err := rfl
@[simp] theorem withOffset_pend (v : Word) : (s.withOffset v).pend = s.pend := rfl
@[simp] theorem withOffset_params (v : Word) : (s.withOffset v).params = s.params := rfl
@[simp] theorem withOffset_inputs (v : Word) : (s.withOffset v).inputs = s.inputs := rfl
@[simp] theorem withOffset_busData (v : Word) : (s.withOffset v).busData = s.busData := rfl
@[simp] theorem withOffset_draws (v : Word) : (s.withOffset v).draws = s.draws := rfl

/-! ### `State.withLen` -/

@[simp] theorem withLen_mem (v : Word) : (s.withLen v).mem = s.mem := rfl
@[simp] theorem withLen_offset (v : Word) : (s.withLen v).offset = s.offset := rfl
@[simp] theorem withLen_len (v : Word) : (s.withLen v).len = v := rfl
@[simp] theorem withLen_data (v : Word) : (s.withLen v).data = s.data := rfl
@[simp] theorem withLen_result (v : Word) : (s.withLen v).result = s.result := rfl
@[simp] theorem withLen_crc (v : Word) : (s.withLen v).crc = s.crc := rfl
@[simp] theorem withLen_busy (v : Word) : (s.withLen v).busy = s.busy := rfl
@[simp] theorem withLen_done (v : Word) : (s.withLen v).done = s.done := rfl
@[simp] theorem withLen_err (v : Word) : (s.withLen v).err = s.err := rfl
@[simp] theorem withLen_pend (v : Word) : (s.withLen v).pend = s.pend := rfl
@[simp] theorem withLen_params (v : Word) : (s.withLen v).params = s.params := rfl
@[simp] theorem withLen_inputs (v : Word) : (s.withLen v).inputs = s.inputs := rfl
@[simp] theorem withLen_busData (v : Word) : (s.withLen v).busData = s.busData := rfl
@[simp] theorem withLen_draws (v : Word) : (s.withLen v).draws = s.draws := rfl

/-! ### `State.withData` -/

@[simp] theorem withData_mem (v : DWord) : (s.withData v).mem = s.mem := rfl
@[simp] theorem withData_offset (v : DWord) : (s.withData v).offset = s.offset := rfl
@[simp] theorem withData_len (v : DWord) : (s.withData v).len = s.len := rfl
@[simp] theorem withData_data (v : DWord) : (s.withData v).data = v := rfl
@[simp] theorem withData_result (v : DWord) : (s.withData v).result = s.result := rfl
@[simp] theorem withData_crc (v : DWord) : (s.withData v).crc = s.crc := rfl
@[simp] theorem withData_busy (v : DWord) : (s.withData v).busy = s.busy := rfl
@[simp] theorem withData_done (v : DWord) : (s.withData v).done = s.done := rfl
@[simp] theorem withData_err (v : DWord) : (s.withData v).err = s.err := rfl
@[simp] theorem withData_pend (v : DWord) : (s.withData v).pend = s.pend := rfl
@[simp] theorem withData_params (v : DWord) : (s.withData v).params = s.params := rfl
@[simp] theorem withData_inputs (v : DWord) : (s.withData v).inputs = s.inputs := rfl
@[simp] theorem withData_busData (v : DWord) : (s.withData v).busData = s.busData := rfl
@[simp] theorem withData_draws (v : DWord) : (s.withData v).draws = s.draws := rfl

/-! ### `State.withResult` -/

@[simp] theorem withResult_mem (v : DWord) : (s.withResult v).mem = s.mem := rfl
@[simp] theorem withResult_offset (v : DWord) : (s.withResult v).offset = s.offset := rfl
@[simp] theorem withResult_len (v : DWord) : (s.withResult v).len = s.len := rfl
@[simp] theorem withResult_data (v : DWord) : (s.withResult v).data = s.data := rfl
@[simp] theorem withResult_result (v : DWord) : (s.withResult v).result = v := rfl
@[simp] theorem withResult_crc (v : DWord) : (s.withResult v).crc = s.crc := rfl
@[simp] theorem withResult_busy (v : DWord) : (s.withResult v).busy = s.busy := rfl
@[simp] theorem withResult_done (v : DWord) : (s.withResult v).done = s.done := rfl
@[simp] theorem withResult_err (v : DWord) : (s.withResult v).err = s.err := rfl
@[simp] theorem withResult_pend (v : DWord) : (s.withResult v).pend = s.pend := rfl
@[simp] theorem withResult_params (v : DWord) : (s.withResult v).params = s.params := rfl
@[simp] theorem withResult_inputs (v : DWord) : (s.withResult v).inputs = s.inputs := rfl
@[simp] theorem withResult_busData (v : DWord) : (s.withResult v).busData = s.busData := rfl
@[simp] theorem withResult_draws (v : DWord) : (s.withResult v).draws = s.draws := rfl

/-! ### `State.withCrc` -/

@[simp] theorem withCrc_mem (v : Word) : (s.withCrc v).mem = s.mem := rfl
@[simp] theorem withCrc_offset (v : Word) : (s.withCrc v).offset = s.offset := rfl
@[simp] theorem withCrc_len (v : Word) : (s.withCrc v).len = s.len := rfl
@[simp] theorem withCrc_data (v : Word) : (s.withCrc v).data = s.data := rfl
@[simp] theorem withCrc_result (v : Word) : (s.withCrc v).result = s.result := rfl
@[simp] theorem withCrc_crc (v : Word) : (s.withCrc v).crc = v := rfl
@[simp] theorem withCrc_busy (v : Word) : (s.withCrc v).busy = s.busy := rfl
@[simp] theorem withCrc_done (v : Word) : (s.withCrc v).done = s.done := rfl
@[simp] theorem withCrc_err (v : Word) : (s.withCrc v).err = s.err := rfl
@[simp] theorem withCrc_pend (v : Word) : (s.withCrc v).pend = s.pend := rfl
@[simp] theorem withCrc_params (v : Word) : (s.withCrc v).params = s.params := rfl
@[simp] theorem withCrc_inputs (v : Word) : (s.withCrc v).inputs = s.inputs := rfl
@[simp] theorem withCrc_busData (v : Word) : (s.withCrc v).busData = s.busData := rfl
@[simp] theorem withCrc_draws (v : Word) : (s.withCrc v).draws = s.draws := rfl

/-! ### `State.withInputs` -/

@[simp] theorem withInputs_mem (l : List Input) : (s.withInputs l).mem = s.mem := rfl
@[simp] theorem withInputs_offset (l : List Input) : (s.withInputs l).offset = s.offset := rfl
@[simp] theorem withInputs_len (l : List Input) : (s.withInputs l).len = s.len := rfl
@[simp] theorem withInputs_data (l : List Input) : (s.withInputs l).data = s.data := rfl
@[simp] theorem withInputs_result (l : List Input) : (s.withInputs l).result = s.result := rfl
@[simp] theorem withInputs_crc (l : List Input) : (s.withInputs l).crc = s.crc := rfl
@[simp] theorem withInputs_busy (l : List Input) : (s.withInputs l).busy = s.busy := rfl
@[simp] theorem withInputs_done (l : List Input) : (s.withInputs l).done = s.done := rfl
@[simp] theorem withInputs_err (l : List Input) : (s.withInputs l).err = s.err := rfl
@[simp] theorem withInputs_pend (l : List Input) : (s.withInputs l).pend = s.pend := rfl
@[simp] theorem withInputs_params (l : List Input) : (s.withInputs l).params = s.params := rfl
@[simp] theorem withInputs_inputs (l : List Input) : (s.withInputs l).inputs = l := rfl
@[simp] theorem withInputs_busData (l : List Input) : (s.withInputs l).busData = s.busData := rfl
@[simp] theorem withInputs_draws (l : List Input) : (s.withInputs l).draws = s.draws := rfl

/-! ### `State.withBusData` -/

@[simp] theorem withBusData_mem (v : Word) : (s.withBusData v).mem = s.mem := rfl
@[simp] theorem withBusData_offset (v : Word) : (s.withBusData v).offset = s.offset := rfl
@[simp] theorem withBusData_len (v : Word) : (s.withBusData v).len = s.len := rfl
@[simp] theorem withBusData_data (v : Word) : (s.withBusData v).data = s.data := rfl
@[simp] theorem withBusData_result (v : Word) : (s.withBusData v).result = s.result := rfl
@[simp] theorem withBusData_crc (v : Word) : (s.withBusData v).crc = s.crc := rfl
@[simp] theorem withBusData_busy (v : Word) : (s.withBusData v).busy = s.busy := rfl
@[simp] theorem withBusData_done (v : Word) : (s.withBusData v).done = s.done := rfl
@[simp] theorem withBusData_err (v : Word) : (s.withBusData v).err = s.err := rfl
@[simp] theorem withBusData_pend (v : Word) : (s.withBusData v).pend = s.pend := rfl
@[simp] theorem withBusData_params (v : Word) : (s.withBusData v).params = s.params := rfl
@[simp] theorem withBusData_inputs (v : Word) : (s.withBusData v).inputs = s.inputs := rfl
@[simp] theorem withBusData_busData (v : Word) : (s.withBusData v).busData = v := rfl
@[simp] theorem withBusData_draws (v : Word) : (s.withBusData v).draws = s.draws := rfl

/-! ### `State.nextDraw` -/

@[simp] theorem nextDraw_mem : (s.nextDraw).mem = s.mem := rfl
@[simp] theorem nextDraw_offset : (s.nextDraw).offset = s.offset := rfl
@[simp] theorem nextDraw_len : (s.nextDraw).len = s.len := rfl
@[simp] theorem nextDraw_data : (s.nextDraw).data = s.data := rfl
@[simp] theorem nextDraw_result : (s.nextDraw).result = s.result := rfl
@[simp] theorem nextDraw_crc : (s.nextDraw).crc = s.crc := rfl
@[simp] theorem nextDraw_busy : (s.nextDraw).busy = s.busy := rfl
@[simp] theorem nextDraw_done : (s.nextDraw).done = s.done := rfl
@[simp] theorem nextDraw_err : (s.nextDraw).err = s.err := rfl
@[simp] theorem nextDraw_pend : (s.nextDraw).pend = s.pend := rfl
@[simp] theorem nextDraw_params : (s.nextDraw).params = s.params := rfl
@[simp] theorem nextDraw_inputs : (s.nextDraw).inputs = s.inputs := rfl
@[simp] theorem nextDraw_busData : (s.nextDraw).busData = s.busData := rfl
@[simp] theorem nextDraw_draws : (s.nextDraw).draws = s.draws + 1 := rfl

/-! ### `State.issue` -/

@[simp] theorem issue_mem (w : Word) : (s.issue w).mem = s.mem := rfl
@[simp] theorem issue_offset (w : Word) : (s.issue w).offset = s.offset := rfl
@[simp] theorem issue_len (w : Word) : (s.issue w).len = s.len := rfl
@[simp] theorem issue_data (w : Word) : (s.issue w).data = s.data := rfl
@[simp] theorem issue_result (w : Word) : (s.issue w).result = s.result := rfl
@[simp] theorem issue_crc (w : Word) : (s.issue w).crc = s.crc := rfl
@[simp] theorem issue_busy (w : Word) : (s.issue w).busy = true := rfl
@[simp] theorem issue_done (w : Word) : (s.issue w).done = false := rfl
@[simp] theorem issue_err (w : Word) : (s.issue w).err = .ok := rfl
@[simp] theorem issue_pend (w : Word) : (s.issue w).pend = w := rfl
@[simp] theorem issue_params (w : Word) : (s.issue w).params = s.params := rfl
@[simp] theorem issue_inputs (w : Word) : (s.issue w).inputs = s.inputs := rfl
@[simp] theorem issue_busData (w : Word) : (s.issue w).busData = s.busData := rfl
@[simp] theorem issue_draws (w : Word) : (s.issue w).draws = s.draws := rfl

/-! ### `State.complete` -/

@[simp] theorem complete_mem (c : Status) : (s.complete c).mem = s.mem := rfl
@[simp] theorem complete_offset (c : Status) : (s.complete c).offset = s.offset := rfl
@[simp] theorem complete_len (c : Status) : (s.complete c).len = s.len := rfl
@[simp] theorem complete_data (c : Status) : (s.complete c).data = s.data := rfl
@[simp] theorem complete_result (c : Status) : (s.complete c).result = s.result := rfl
@[simp] theorem complete_crc (c : Status) : (s.complete c).crc = s.crc := rfl
@[simp] theorem complete_busy (c : Status) : (s.complete c).busy = false := rfl
@[simp] theorem complete_done (c : Status) : (s.complete c).done = true := rfl
@[simp] theorem complete_err (c : Status) : (s.complete c).err = c := rfl
@[simp] theorem complete_pend (c : Status) : (s.complete c).pend = s.pend := rfl
@[simp] theorem complete_params (c : Status) : (s.complete c).params = s.params := rfl
@[simp] theorem complete_inputs (c : Status) : (s.complete c).inputs = s.inputs := rfl
@[simp] theorem complete_busData (c : Status) : (s.complete c).busData = s.busData := rfl
@[simp] theorem complete_draws (c : Status) : (s.complete c).draws = s.draws + 1 := rfl

/-! ### `State.returning` -/

@[simp] theorem returning_mem (v : DWord) : (s.returning v).mem = s.mem := rfl
@[simp] theorem returning_offset (v : DWord) : (s.returning v).offset = s.offset := rfl
@[simp] theorem returning_len (v : DWord) : (s.returning v).len = s.len := rfl
@[simp] theorem returning_data (v : DWord) : (s.returning v).data = s.data := rfl
@[simp] theorem returning_result (v : DWord) : (s.returning v).result = v := rfl
@[simp] theorem returning_crc (v : DWord) : (s.returning v).crc = s.crc := rfl
@[simp] theorem returning_busy (v : DWord) : (s.returning v).busy = false := rfl
@[simp] theorem returning_done (v : DWord) : (s.returning v).done = true := rfl
@[simp] theorem returning_err (v : DWord) : (s.returning v).err = .ok := rfl
@[simp] theorem returning_pend (v : DWord) : (s.returning v).pend = s.pend := rfl
@[simp] theorem returning_params (v : DWord) : (s.returning v).params = s.params := rfl
@[simp] theorem returning_inputs (v : DWord) : (s.returning v).inputs = s.inputs := rfl
@[simp] theorem returning_busData (v : DWord) : (s.returning v).busData = s.busData := rfl
@[simp] theorem returning_draws (v : DWord) : (s.returning v).draws = s.draws + 1 := rfl

end Sys2Proof.Machine
end

