-- ==== Sys2Proof/Laws/Commands.lean ====
section
/-! SUPPORT. For each shared operation and each command, once, everything it can do: which of its
completions it takes and under what conditions. -/

namespace Sys2Proof.Machine

/-! ### The memory port and the store -/

/-- With a fault-free memory no access fails (R152). -/
theorem portFails_of_faultFree {s : State} (h : s.params.memPortFaults = false) (d : PortDraws)
    (first n : Nat) : s.portFails d first n = false := by
  simp [State.portFails, h]

/-- A failed access means that the port can fail and that some access of these was drawn to. -/
theorem portFails_iff (s : State) (d : PortDraws) (first n : Nat) :
    s.portFails d first n = true ↔
      s.params.memPortFaults = true ∧ ∃ k, k < n ∧ d.fails (first + k) = true := by
  simp [State.portFails, List.any_eq_true]

/-- A store completes `OK` with every byte landed, or `IO_ERROR` with some (R107, R134). -/
theorem storing_cases (s : State) (d : PortDraws) (first a : Nat) (bytes : List Byte) :
    (s.portFails d first bytes.length = false ∧
      s.storing d first a bytes =
        (s.withMem (s.mem.storeSome allLand a 0 bytes)).complete .ok) ∨
    (s.portFails d first bytes.length = true ∧
      s.storing d first a bytes =
        (s.withMem (s.mem.storeSome d.landed a 0 bytes)).complete .ioError) := by
  unfold State.storing
  cases h : s.portFails d first bytes.length <;> simp

/-! ### The bit accessor commands -/

/-- The completions of `RDBITS`. -/
theorem rdbits_cases (d : PortDraws) (w : Nat) (s : State) :
    (¬ s.InRange s.off w ∧ rdbits d w s = s.complete .outOfRange) ∨
    (s.InRange s.off w ∧ s.portFails d 0 (spanBytes s.off w) = true ∧
      rdbits d w s = s.complete .ioError) ∨
    (s.InRange s.off w ∧ s.portFails d 0 (spanBytes s.off w) = false ∧
      rdbits d w s = s.returning (s.field s.off w)) := by
  unfold rdbits
  by_cases h : s.InRange s.off w
  · cases hp : s.portFails d 0 (spanBytes s.off w) <;> simp [h]
  · simp [h]

/-- The completions of `WRBITS`. -/
theorem wrbits_cases (d : PortDraws) (w : Nat) (s : State) :
    (w = 0 ∧ wrbits d w s = s.complete .ok) ∨
    (w ≠ 0 ∧ ¬ s.InRange s.off w ∧ wrbits d w s = s.complete .outOfRange) ∨
    (w ≠ 0 ∧ s.InRange s.off w ∧ (s.params.strictValue = true ∧ s.ValueTooWide w) ∧
      wrbits d w s = s.complete .valueRange) ∨
    (w ≠ 0 ∧ s.InRange s.off w ∧ ¬ (s.params.strictValue = true ∧ s.ValueTooWide w) ∧
      s.portFails d 0 (spanBytes s.off w) = true ∧ wrbits d w s = s.complete .ioError) ∨
    (w ≠ 0 ∧ s.InRange s.off w ∧ ¬ (s.params.strictValue = true ∧ s.ValueTooWide w) ∧
      s.portFails d 0 (spanBytes s.off w) = false ∧
      s.portFails d (spanBytes s.off w) (spanBytes s.off w) = true ∧
      wrbits d w s = (s.withMem (s.mem.storeSome d.landed (spanFirst s.off) 0
        (s.merged s.off w))).complete .ioError) ∨
    (w ≠ 0 ∧ s.InRange s.off w ∧ ¬ (s.params.strictValue = true ∧ s.ValueTooWide w) ∧
      s.portFails d 0 (spanBytes s.off w) = false ∧
      s.portFails d (spanBytes s.off w) (spanBytes s.off w) = false ∧
      wrbits d w s = (s.withMem (s.mem.storeSome allLand (spanFirst s.off) 0
        (s.merged s.off w))).complete .ok) := by
  unfold wrbits
  by_cases hw : w = 0
  · simp [hw]
  by_cases h : s.InRange s.off w
  · by_cases hv : s.params.strictValue = true ∧ s.ValueTooWide w
    · exact .inr (.inr (.inl ⟨hw, h, hv, by rw [if_neg hw, if_pos h, if_pos hv]⟩))
    · rw [if_neg hw, if_pos h, if_neg hv]
      refine .inr (.inr (.inr ?_))
      cases hp : s.portFails d 0 (spanBytes s.off w)
      · rcases storing_cases s d (spanBytes s.off w) (spanFirst s.off) (s.merged s.off w) with
          ⟨h1, h2⟩ | ⟨h1, h2⟩ <;> rw [merged_length] at h1
        · exact .inr (.inr ⟨hw, h, hv, rfl, h1, by simpa using h2⟩)
        · exact .inr (.inl ⟨hw, h, hv, rfl, h1, by simpa using h2⟩)
      · exact .inl ⟨hw, h, hv, rfl, by simp⟩
  · simp [hw, h]

/-- The completions of `RDU32`. -/
theorem rdu32_cases (d : PortDraws) (s : State) :
    (¬ s.InRange (8 * s.off) 32 ∧ rdu32 d s = s.complete .outOfRange) ∨
    (s.InRange (8 * s.off) 32 ∧ s.portFails d 0 4 = true ∧ rdu32 d s = s.complete .ioError) ∨
    (s.InRange (8 * s.off) 32 ∧ s.portFails d 0 4 = false ∧
      rdu32 d s = s.returning (wordOfBytes (s.mem.read s.off) (s.mem.read (s.off + 1))
        (s.mem.read (s.off + 2)) (s.mem.read (s.off + 3)))) := by
  unfold rdu32
  by_cases h : s.InRange (8 * s.off) 32
  · cases hp : s.portFails d 0 4 <;> simp [h]
  · simp [h]

/-! ### The checksum engine commands -/

/-- The completions of `CRCCOMP`. -/
theorem crccomp_cases (d : PortDraws) (s : State) :
    (¬ s.HasSlot ∧ crccomp d s = s.complete .tooSmall) ∨
    (s.HasSlot ∧ s.portFails d 0 s.slot = true ∧
      crccomp d s = (s.withCrc d.crc).complete .ioError) ∨
    (s.HasSlot ∧ s.portFails d 0 s.slot = false ∧
      crccomp d s = (s.withCrc s.streamCrc).returning ((s.streamCrc ^^^ crcOnes).setWidth 64)) := by
  unfold crccomp
  by_cases h : s.HasSlot
  · cases hp : s.portFails d 0 s.slot <;> simp [h]
  · simp [h]

@[simp] theorem bytesOfWord_length (v : Word) : (bytesOfWord v).length = 4 := rfl

/-- The completions of `CRCSTORE`. -/
theorem crcstore_cases (d : PortDraws) (s : State) :
    (¬ s.HasSlot ∧ crcstore d s = s.complete .tooSmall) ∨
    (s.HasSlot ∧ s.portFails d 0 4 = true ∧
      crcstore d s =
        (s.withMem (s.mem.storeSome d.landed s.slot 0 (bytesOfWord s.dataWord))).complete
          .ioError) ∨
    (s.HasSlot ∧ s.portFails d 0 4 = false ∧
      crcstore d s =
        (s.withMem (s.mem.storeSome allLand s.slot 0 (bytesOfWord s.dataWord))).complete .ok) := by
  unfold crcstore
  by_cases h : s.HasSlot
  · rcases storing_cases s d 0 s.slot (bytesOfWord s.dataWord) with ⟨h1, h2⟩ | ⟨h1, h2⟩ <;>
      rw [bytesOfWord_length] at h1 <;> simp [h, h1, h2]
  · simp [h]

/-- The bytes `CRCCOMP` folds, one by one (R131). -/
theorem streamCrc_eq (s : State) :
    s.streamCrc = ((List.range s.slot).map s.mem.read).foldl crcFold crcOnes := by
  simp [State.streamCrc, crcFoldAll, Memory.readSpan]

end Sys2Proof.Machine
end

