-- ==== Sys2Proof/Laws/Crc.lean ====
section
/-! SUPPORT. What the rounds of the CRC do: they are linear over exclusive or, and on a word whose low
bits are 0 they are shifts. -/

namespace Sys2Proof.Machine

/-- A round is linear over exclusive or. -/
theorem crcRound_xor (a b : Word) : crcRound (a ^^^ b) = crcRound a ^^^ crcRound b := by
  unfold crcRound
  rw [BitVec.getLsbD_xor]
  cases a.getLsbD 0 <;> cases b.getLsbD 0 <;>
    simp only [Bool.xor_false, Bool.xor_true, Bool.not_false, Bool.not_true, if_true,
      if_false, Bool.false_eq_true, BitVec.ushiftRight_xor_distrib]
  · ac_rfl
  · ac_rfl
  · rw [show crcPoly ^^^ a >>> 1 ^^^ (crcPoly ^^^ b >>> 1) =
      (crcPoly ^^^ crcPoly) ^^^ (a >>> 1 ^^^ b >>> 1) by ac_rfl]
    simp

/-- So are `k` rounds. -/
theorem crcRounds_xor (k : Nat) (a b : Word) :
    crcRounds k (a ^^^ b) = crcRounds k a ^^^ crcRounds k b := by
  induction k generalizing a b with
  | zero => rfl
  | succ k ih => simp only [crcRounds, crcRound_xor, ih]

/-- `k` rounds of a word whose low `k` bits are 0 shift it. -/
theorem crcRounds_shift (k : Nat) (c : Word) (h : ∀ j, j < k → c.getLsbD j = false) :
    crcRounds k c = c >>> k := by
  induction k generalizing c with
  | zero => simp [crcRounds]
  | succ k ih =>
    have h0 := h 0 (by omega)
    simp only [crcRounds, crcRound, h0, Bool.false_eq_true, if_false]
    rw [ih]
    · rw [← BitVec.shiftRight_add]; congr 1; omega
    · intro j hj; rw [BitVec.getLsbD_ushiftRight]; exact h _ (by omega)

end Sys2Proof.Machine
end

