-- ==== Sys2Proof/Laws/Decode.lean ====
section
/-! SUPPORT. The fields of a command word as numbers (R70), and what `decode` answers, by field. -/

namespace Sys2Proof

theorem opcField_eq (w : Word) : opcField w = w.toNat % 16 := by
  simp [opcField, BitVec.extractLsb'_toNat]

theorem widthField_eq (w : Word) : widthField w = w.toNat / 16 % 128 := by
  simp [widthField, BitVec.extractLsb'_toNat, Nat.shiftRight_eq_div_pow]

theorem rsvField_eq (w : Word) : rsvField w = w.toNat / 2048 := by
  have := w.isLt
  simp only [rsvField, BitVec.extractLsb'_toNat, Nat.shiftRight_eq_div_pow]
  omega

/-- The word of an opcode and a width, as a number. -/
theorem toNat_opc_or_width (o n : Nat) (ho : o < 16) (hn : n < 128) :
    (BitVec.ofNat 32 o ||| (BitVec.ofNat 32 n <<< 4)).toNat = o + 16 * n := by
  have h1 : (BitVec.ofNat 32 o).toNat = o := by simp; omega
  have h2 : (BitVec.ofNat 32 n <<< 4).toNat = n <<< 4 := by
    simp only [BitVec.toNat_shiftLeft, BitVec.toNat_ofNat, Nat.shiftLeft_eq]
    omega
  rw [BitVec.toNat_or, h1, h2, Nat.lor_comm, ← Nat.shiftLeft_add_eq_or_of_lt (by omega : o < 2 ^ 4),
    Nat.shiftLeft_eq]
  omega

theorem opcode_lt (i : Instr) : opcode i < 16 := by
  cases i <;> simp [opcode]

/-- The widths the encoding admits (R72). -/
theorem wellFormed_rdbits (w : Nat) : (Instr.rdbits w).wellFormed = true ↔ 1 ≤ w ∧ w ≤ 64 := by
  rw [Instr.wellFormed, Bool.and_eq_true, decide_eq_true_eq, decide_eq_true_eq]

theorem wellFormed_wrbits (w : Nat) : (Instr.wrbits w).wellFormed = true ↔ w ≤ 64 := by
  rw [Instr.wellFormed, decide_eq_true_eq]

theorem width_le {i : Instr} (h : i.wellFormed = true) : width i ≤ 64 := by
  cases i
  case rdbits w => exact ((wellFormed_rdbits w).mp h).2
  case wrbits w => exact (wellFormed_wrbits w).mp h
  all_goals simp [width]

/-- The word of a well-formed command, as a number. -/
theorem toNat_encode {i : Instr} (h : i.wellFormed = true) :
    (encode i).toNat = opcode i + 16 * width i :=
  toNat_opc_or_width _ _ (opcode_lt i) (by have := width_le h; omega)

/-- The word whose fields are `o`, `n` and 0 is the word of that opcode and width. -/
theorem word_of_fields {w : Word} (h : rsvField w = 0) :
    w = BitVec.ofNat 32 (opcField w) ||| (BitVec.ofNat 32 (widthField w) <<< 4) := by
  apply BitVec.eq_of_toNat_eq
  rw [toNat_opc_or_width _ _ (by rw [opcField_eq]; omega) (by rw [widthField_eq]; omega),
    opcField_eq, widthField_eq]
  rw [rsvField_eq] at h
  omega

end Sys2Proof
end

