-- ==== Sys2Proof/Laws/PerInstr.lean ====
section
/-! SUPPORT. The per-instruction family `EncodedFields`: the word of a well-formed command holds its
opcode, its width and zeros, each in its field (spec/30_encoding.md R70). -/

namespace Sys2Proof.Laws

/-- The fields of the word of `i` (R70). -/
def EncodedFields.Statement (i : Instr) : Prop :=
  i.wellFormed = true →
    opcField (encode i) = opcode i ∧ widthField (encode i) = width i ∧ rsvField (encode i) = 0

/-- The fields of any well-formed command's word. -/
theorem encodedFields_of_wellFormed (i : Instr) : EncodedFields.Statement i := by
  intro h
  have ho := opcode_lt i
  have hw := width_le h
  rw [opcField_eq, widthField_eq, rsvField_eq, toNat_encode h]
  omega

theorem EncodedFields.rdbits (w : Nat) : EncodedFields.Statement (.rdbits w) :=
  encodedFields_of_wellFormed _
theorem EncodedFields.wrbits (w : Nat) : EncodedFields.Statement (.wrbits w) :=
  encodedFields_of_wellFormed _
theorem EncodedFields.rdu32 : EncodedFields.Statement .rdu32 := encodedFields_of_wellFormed _
theorem EncodedFields.crcinit : EncodedFields.Statement .crcinit := encodedFields_of_wellFormed _
theorem EncodedFields.crcbyte : EncodedFields.Statement .crcbyte := encodedFields_of_wellFormed _
theorem EncodedFields.crcfinal : EncodedFields.Statement .crcfinal := encodedFields_of_wellFormed _
theorem EncodedFields.crccomp : EncodedFields.Statement .crccomp := encodedFields_of_wellFormed _
theorem EncodedFields.crcstore : EncodedFields.Statement .crcstore := encodedFields_of_wellFormed _
theorem EncodedFields.tblrd : EncodedFields.Statement .tblrd := encodedFields_of_wellFormed _

end Sys2Proof.Laws
end

