-- ==== Sys2Proof/Laws/Turn.lean ====
section
/-! SUPPORT. What a turn can do, once: the frames every command keeps, and the inversion of the step. -/

namespace Sys2Proof.Machine

/-! ### Completion -/

theorem completed_complete (s : State) (c : Status) : Completed (s.complete c) c := ⟨rfl, rfl, rfl⟩

theorem completed_returning (s : State) (v : DWord) : Completed (s.returning v) .ok :=
  ⟨rfl, rfl, rfl⟩

theorem keepsOperands_complete (s : State) (c : Status) : KeepsOperands s (s.complete c) :=
  ⟨rfl, rfl, rfl, rfl, rfl, rfl, rfl⟩

/-- Completion alone has no effect but `STATUS`. -/
theorem onlyStatus_complete (s : State) (c : Status) : OnlyStatus s (s.complete c) c :=
  ⟨completed_complete s c, keepsOperands_complete s c, rfl, rfl, fun _ => rfl⟩

/-! ### Every command -/

/-- Every command completes (R32). -/
theorem exec_answers_next (i : Instr) (s : State) : ∃ t, exec i s = .next t := by
  cases i <;> exact ⟨_, rfl⟩

/-- The forms a command leaves the state in: `CRC`, `RESULT` or some bytes of `M` written, then
completion. Which bytes: those of a store the command makes from this state (R57, R77). -/
theorem exec_cases {i : Instr} {s t : State} (h : exec i s = .next t) :
    (∃ c, t = s.complete c) ∨
    (∃ v, t = s.returning v) ∨
    (∃ v c, t = (s.withCrc v).complete c) ∨
    (∃ v x, t = (s.withCrc v).returning x) ∨
    (∃ a bytes land c, s.storeOf i = some (a, bytes) ∧
      t = (s.withMem (s.mem.storeSome land a 0 bytes)).complete c) := by
  cases i
  case rdbits w =>
    cases h
    rcases rdbits_cases (Config.portDraws s.draws) w s with ⟨_, e⟩ | ⟨_, _, e⟩ | ⟨_, _, e⟩ <;>
      rw [e]
    · exact .inl ⟨_, rfl⟩
    · exact .inl ⟨_, rfl⟩
    · exact .inr (.inl ⟨_, rfl⟩)
  case wrbits w =>
    cases h
    have hst (h0 : w ≠ 0) (hr : s.InRange s.off w)
        (hv : ¬ (s.params.strictValue = true ∧ s.ValueTooWide w)) :
        s.storeOf (.wrbits w) = some (spanFirst s.off, s.merged s.off w) := by
      simp only [State.storeOf]
      exact if_neg (fun hx => hx.elim h0 (fun hy => hy.elim (· hr) hv))
    rcases wrbits_cases (Config.portDraws s.draws) w s with
      ⟨_, e⟩ | ⟨_, _, e⟩ | ⟨_, _, _, e⟩ | ⟨_, _, _, _, e⟩ | ⟨h0, hr, hv, _, _, e⟩ |
      ⟨h0, hr, hv, _, _, e⟩ <;> rw [e]
    · exact .inl ⟨_, rfl⟩
    · exact .inl ⟨_, rfl⟩
    · exact .inl ⟨_, rfl⟩
    · exact .inl ⟨_, rfl⟩
    · exact .inr (.inr (.inr (.inr ⟨_, _, _, _, hst h0 hr hv, rfl⟩)))
    · exact .inr (.inr (.inr (.inr ⟨_, _, _, _, hst h0 hr hv, rfl⟩)))
  case rdu32 =>
    cases h
    rcases rdu32_cases (Config.portDraws s.draws) s with ⟨_, e⟩ | ⟨_, _, e⟩ | ⟨_, _, e⟩ <;> rw [e]
    · exact .inl ⟨_, rfl⟩
    · exact .inl ⟨_, rfl⟩
    · exact .inr (.inl ⟨_, rfl⟩)
  case crcinit => cases h; exact .inr (.inr (.inl ⟨_, _, rfl⟩))
  case crcbyte => cases h; exact .inr (.inr (.inl ⟨_, _, rfl⟩))
  case crcfinal => cases h; exact .inr (.inl ⟨_, rfl⟩)
  case crccomp =>
    cases h
    rcases crccomp_cases (Config.portDraws s.draws) s with ⟨_, e⟩ | ⟨_, _, e⟩ | ⟨_, _, e⟩ <;> rw [e]
    · exact .inl ⟨_, rfl⟩
    · exact .inr (.inr (.inl ⟨_, _, rfl⟩))
    · exact .inr (.inr (.inr (.inl ⟨_, _, rfl⟩)))
  case crcstore =>
    cases h
    have hst (hs : s.HasSlot) : s.storeOf .crcstore = some (s.slot, bytesOfWord s.dataWord) := by
      simp only [State.storeOf]; exact if_pos hs
    rcases crcstore_cases (Config.portDraws s.draws) s with ⟨_, e⟩ | ⟨hs, _, e⟩ | ⟨hs, _, e⟩ <;>
      rw [e]
    · exact .inl ⟨_, rfl⟩
    · exact .inr (.inr (.inr (.inr ⟨_, _, _, _, hst hs, rfl⟩)))
    · exact .inr (.inr (.inr (.inr ⟨_, _, _, _, hst hs, rfl⟩)))
  case tblrd => cases h; exact .inr (.inl ⟨_, rfl⟩)

/-- The store a command makes lies in the stream (R56, R100, R133). -/
theorem storeOf_in_stream {i : Instr} {s : State} {a : Nat} {bytes : List Byte}
    (h : s.storeOf i = some (a, bytes)) : a + bytes.length ≤ s.len.toNat := by
  cases i <;> simp only [State.storeOf, reduceCtorEq] at h
  case wrbits w =>
    split at h
    · cases h
    · rename_i hn
      cases h
      have hr : s.InRange s.off w := by
        by_contra hc; exact hn (.inr (.inl hc))
      rw [merged_length]
      exact span_in_stream hr
  case crcstore =>
    split at h
    · rename_i hs
      cases h
      simp only [bytesOfWord_length, State.slot, State.HasSlot, Config.slotBytes] at *
      omega
    · cases h

/-! ### The step -/

/-- The step with an input first. -/
theorem step_input {s : State} {x : Input} {rest : List Input} (h : s.inputs = x :: rest) :
    step s = inputTurn x (s.withInputs rest) := by
  simp only [step, takeTurn, h]

/-- The step with no input: the block's turn. -/
theorem step_no_input {s : State} (h : s.inputs = []) : step s = blockTurn s := by
  simp only [step, takeTurn, h]

/-- The block's turn while a command is pending and legal. -/
theorem blockTurn_of_decode {s : State} {i : Instr} (hb : s.busy = true)
    (hd : decode s.pend = .ok i) : blockTurn s = exec i s := by
  simp only [blockTurn, hb, if_true, hd]

/-- The block's turn while a command is pending and illegal. -/
theorem blockTurn_of_illegal {s : State} {e : IllegalWord} (hb : s.busy = true)
    (hd : decode s.pend = .error e) : blockTurn s = .next (s.complete .illegal) := by
  simp only [blockTurn, hb, if_true, hd]

/-- The block's turn while it is idle (R20). -/
theorem blockTurn_of_idle {s : State} (hb : s.busy = false) : blockTurn s = .next s := by
  simp [blockTurn, hb]

/-- Everything the block's turn can do. -/
theorem blockTurn_cases {s t : State} (h : blockTurn s = .next t) :
    (s.busy = false ∧ t = s) ∨
    (s.busy = true ∧ ∃ e, decode s.pend = .error e ∧ t = s.complete .illegal) ∨
    (s.busy = true ∧ ∃ i, decode s.pend = .ok i ∧ exec i s = .next t) := by
  cases hb : s.busy
  · rw [blockTurn_of_idle hb] at h; cases h; exact .inl ⟨rfl, rfl⟩
  · cases hd : decode s.pend with
    | error e => rw [blockTurn_of_illegal hb hd] at h; cases h; exact .inr (.inl ⟨rfl, e, rfl, rfl⟩)
    | ok i => rw [blockTurn_of_decode hb hd] at h; exact .inr (.inr ⟨rfl, i, rfl, h⟩)

/-- One more step of a run of any machine. -/
theorem core_run_succ (M : Host.Core) (n : Nat) {s t : M.State} (h : M.step s = .next t) :
    M.run (n + 1) s = M.run n t := by
  rw [Host.Core.run, h]

/-- One more step of a run. -/
theorem run_succ (n : Nat) {s t : State} (h : step s = .next t) :
    Host.Core.run Sys2Proof.core (n + 1) s = Host.Core.run Sys2Proof.core n t :=
  core_run_succ Sys2Proof.core n h

/-- The register an aligned word access of the window selects (R22, R60). -/
theorem busReg_of_window {base addr : Nat} (h1 : base ≤ addr) (h2 : addr < base + 256)
    (h3 : (addr - base) % 4 = 0) : busReg base addr 4 = .ok (regAt (addr - base)) := by
  simp [busReg, Config.windowBytes, h1, h2, h3]

/-- The same, by the offset in the window. -/
theorem busReg_of_offset (base : Nat) {o : Nat} (h : o < 256) (h4 : o % 4 = 0) :
    busReg base (base + o) 4 = .ok (regAt o) := by
  rw [busReg_of_window (by omega) (by omega) (by rw [Nat.add_sub_cancel_left]; exact h4),
    Nat.add_sub_cancel_left]

/-- Everything a step can do: the block's turn, a host write or read of a register, a host write or
read of a byte of `M` while idle, a reset. -/
theorem step_cases {s t : State} (h : step s = .next t) :
    (s.inputs = [] ∧ blockTurn s = .next t) ∨
    ∃ rest, (s.inputs = .block :: rest ∧ blockTurn (s.withInputs rest) = .next t) ∨
      (∃ addr n v r, s.inputs = .write addr n v :: rest ∧ busReg s.params.regBase addr n = .ok r ∧
        t = (s.withInputs rest).writeReg r v) ∨
      (∃ addr n r, s.inputs = .read addr n :: rest ∧ busReg s.params.regBase addr n = .ok r ∧
        t = (s.withInputs rest).readReg (Config.busyRead s.draws) r) ∨
      (∃ a b, s.inputs = .poke a b :: rest ∧ s.busy = false ∧ a < s.params.memBytes ∧
        t = (s.withInputs rest).withMem (s.mem.store a b)) ∨
      (∃ a, s.inputs = .peek a :: rest ∧ s.busy = false ∧ a < s.params.memBytes ∧
        t = (s.withInputs rest).withBusData ((s.mem.read a).setWidth 32)) ∨
      (s.inputs = .reset :: rest ∧
        t = resetBlock (Config.portDraws s.draws) (s.withInputs rest)) := by
  cases hi : s.inputs with
  | nil => exact .inl ⟨rfl, by rw [← step_no_input hi]; exact h⟩
  | cons x rest =>
    refine .inr ⟨rest, ?_⟩
    rw [step_input hi] at h
    cases x with
    | block => exact .inl ⟨rfl, h⟩
    | write addr n v =>
      simp only [inputTurn, hostWrite] at h
      split at h
      · rename_i r hr; cases h
        exact .inr (.inl ⟨addr, n, v, r, rfl, hr, rfl⟩)
      · cases h
    | read addr n =>
      simp only [inputTurn, hostRead] at h
      split at h
      · rename_i r hr; cases h
        exact .inr (.inr (.inl ⟨addr, n, r, rfl, hr, rfl⟩))
      · cases h
    | poke a b =>
      simp only [inputTurn, hostPoke] at h
      split at h
      · cases h
      · split at h
        · rename_i hb ha; cases h
          exact .inr (.inr (.inr (.inl ⟨a, b, rfl, by simpa using hb, ha, rfl⟩)))
        · cases h
    | peek a =>
      simp only [inputTurn, hostPeek] at h
      split at h
      · cases h
      · split at h
        · rename_i hb ha; cases h
          exact .inr (.inr (.inr (.inr (.inl ⟨a, rfl, by simpa using hb, ha, rfl⟩))))
        · cases h
    | reset =>
      cases h
      exact .inr (.inr (.inr (.inr (.inr ⟨rfl, rfl⟩))))

end Sys2Proof.Machine
end

