-- ==== Sys2Proof/Tests/Slice0.lean ====
section
/-! SUPPORT. Tests of single steps, with values from spec/95_test_vectors.md and the words of
spec/30_encoding.md, and for each statement that has hypotheses a state and operands that meet them. -/

namespace Sys2Proof.Tests

open Sys2Proof Sys2Proof.Machine

/-! ### Small states -/

/-- A memory of the bytes given, from address 0 up. -/
def bytesAt0 (bytes : List Byte) : Memory := bytes.zipIdx.map fun (b, a) => (a, b)

/-- An idle block of 64 bytes of memory with `bytes` in it, all of them the stream. -/
def loaded (bytes : List Byte) : State :=
  { State.powerOn ⟨64, false, false, 0⟩ (bytesAt0 bytes) with len := BitVec.ofNat 32 bytes.length }

/-- The block of the field vectors, `A5 3C`. -/
def fieldBlock (off : Word) (data : DWord) : State :=
  ((loaded [0xA5#8, 0x3C#8]).withOffset off).withData data

/-- The block of the 64-bit field vectors. -/
def wideBlock (off : Word) : State :=
  (loaded [0x01#8, 0x23#8, 0x45#8, 0x67#8, 0x89#8, 0xAB#8, 0xCD#8, 0xEF#8, 0x01#8]).withOffset off

/-- The block of S1: "123456789" and a slot of four bytes. -/
def digitsBlock : State :=
  loaded [0x31#8, 0x32#8, 0x33#8, 0x34#8, 0x35#8, 0x36#8, 0x37#8, 0x38#8, 0x39#8,
    0x00#8, 0x00#8, 0x00#8, 0x00#8]

/-- The same block with other bytes in the slot. -/
def otherSlotBlock : State :=
  loaded [0x31#8, 0x32#8, 0x33#8, 0x34#8, 0x35#8, 0x36#8, 0x37#8, 0x38#8, 0x39#8,
    0xCB#8, 0xF4#8, 0x39#8, 0x26#8]

/-- The block of U1 to U7. -/
def wordBlock (off : Word) : State :=
  (loaded [0x12#8, 0x34#8, 0x56#8, 0x78#8, 0x9A#8]).withOffset off

/-- Six zero bytes, of which the stream is the first `len`. -/
def zeroBlock (len : Word) (data : DWord) : State :=
  ((loaded [0#8, 0#8, 0#8, 0#8, 0#8, 0#8]).withLen len).withData data

/-- With a memory port that can fail. -/
def withFaults (s : State) : State := { s with params := { s.params with memPortFaults := true } }

/-- With `STRICT_VALUE`. -/
def strict (s : State) : State := { s with params := { s.params with strictValue := true } }

/-- With the command `w` pending and the inputs given. -/
def pending (w : Word) (l : List Input) (s : State) : State := (s.issue w).withInputs l

/-- Draws that fail access `k` alone and let byte 1 of a failed store land. -/
def failAt (k : Nat) : PortDraws := ⟨fun n => n == k, fun n => n == 1, 0xDEADBEEF#32⟩

/-- What a step leaves in a part of the state, if it answers a next state. -/
def after {α : Type} (f : State → α) : Host.Outcome State Fault Refusal → Option α
  | .next t => some (f t)
  | .fault _ => none
  | .refused _ => none

/-- The command `w` run as the next step. -/
def run (w : Nat) (s : State) : Host.Outcome State Fault Refusal := step (s.withFetchWord 32 w)

/-! ### Well-formedness: what the checks refuse (R72) -/

theorem test_rdbits_width_0_is_refused : (Instr.rdbits 0).wellFormed = false := by decide
theorem test_rdbits_width_65_is_refused : (Instr.rdbits 65).wellFormed = false := by decide
theorem test_wrbits_width_65_is_refused : (Instr.wrbits 65).wellFormed = false := by decide

/-! ### Decoding: words written out bit by bit from R70, and E1 to E18 -/

theorem test_word_rdbits_1 :
    decode 0b00000000000000000000000000010001#32 = .ok (.rdbits 1) := by decide
theorem test_word_rdbits_64 :
    decode 0b00000000000000000000010000000001#32 = .ok (.rdbits 64) := by decide
theorem test_word_wrbits_0 :
    decode 0b00000000000000000000000000000010#32 = .ok (.wrbits 0) := by decide
theorem test_word_wrbits_10 :
    decode 0b00000000000000000000000010100010#32 = .ok (.wrbits 10) := by decide
theorem test_word_rdu32 : decode 0b00000000000000000000000000000011#32 = .ok .rdu32 := by decide
theorem test_word_crcinit : decode 0b00000000000000000000000000000100#32 = .ok .crcinit := by decide
theorem test_word_crcbyte : decode 0b00000000000000000000000000000101#32 = .ok .crcbyte := by decide
theorem test_word_crcfinal :
    decode 0b00000000000000000000000000000110#32 = .ok .crcfinal := by decide
theorem test_word_crccomp : decode 0b00000000000000000000000000000111#32 = .ok .crccomp := by decide
theorem test_word_crcstore :
    decode 0b00000000000000000000000000001000#32 = .ok .crcstore := by decide
theorem test_word_tblrd : decode 0b00000000000000000000000000001001#32 = .ok .tblrd := by decide

/-- E1, E2, E6, E7, E11, E13, E15 to E18. -/
theorem test_illegal_words :
    ([0x00000000#32, 0x00000001#32, 0x00000411#32, 0x000007F1#32, 0x00000412#32, 0x00000013#32,
      0x0000000A#32, 0x0000000F#32, 0x00000801#32, 0x80000003#32, 0x80000009#32].map
        fun w => (decode w).toOption) = List.replicate 11 none := by decide

/-- The words of the opcode table, `RDBITS` with a width of 7 in its place. -/
theorem test_table_words :
    ([0x71, 2, 3, 4, 5, 6, 7, 8, 9].map fun w => decodeTableWord 32 w) =
      [some (.rdbits 7), some (.wrbits 0), some .rdu32, some .crcinit, some .crcbyte,
        some .crcfinal, some .crccomp, some .crcstore, some .tblrd] := by decide

/-! ### One step of each command -/

/-- R1. -/
theorem test_rdbits_crosses_a_byte :
    after (·.result) (run 0x41 (fieldBlock 6#32 0)) = some 0x4#64 := by decide +kernel

/-- R10. -/
theorem test_rdbits_of_nine_bytes :
    after (·.result) (run 0x401 (wideBlock 7#32)) = some 0x91A2B3C4D5E6F780#64 := by
  decide +kernel

/-- W3. -/
theorem test_wrbits_truncates :
    after (·.mem) (run 0x42 (fieldBlock 6#32 0x1A#64)) = some [(0, 0xA6#8), (1, 0xBC#8)] := by
  decide +kernel

/-- W23: with `STRICT_VALUE` the bounds come first. -/
theorem test_wrbits_bounds_before_value :
    after (·.status) (run 0x72 (strict (fieldBlock 10#32 0x80#64))) = some 0x12#32 := by
  decide +kernel

/-- U2. -/
theorem test_rdu32_at_the_end :
    after (·.result) (run 3 (wordBlock 1#32)) = some 0x3456789A#64 := by decide +kernel

/-- U6: the bit offset does not wrap. -/
theorem test_rdu32_does_not_wrap :
    after (·.status) (run 3 (wordBlock 0x20000000#32)) = some 0x12#32 := by decide +kernel

/-- K1. -/
theorem test_crcinit :
    after (·.crc) (run 4 (State.reset.withCrc 0x12345678#32)) = some 0xFFFFFFFF#32 := by
  decide +kernel

/-- K4. -/
theorem test_crcbyte :
    after (·.crc) (run 5 ((State.reset.withCrc 0x12345678#32).withData 0xAB#64)) =
      some 0x1FC8B738#32 := by decide +kernel

/-- K3: only `DATA[7:0]` is folded. -/
theorem test_crcbyte_ignores_upper_data :
    after (·.crc) (run 5 (State.reset.withData 0x1FF#64)) = some 0x00FFFFFF#32 := by
  decide +kernel

/-- K5. -/
theorem test_crcfinal :
    after (·.result) (run 6 (State.reset.withCrc 0x340BC6D9#32)) = some 0xCBF43926#64 := by
  decide +kernel

/-- S1, K11: the source's own value. -/
theorem test_crccomp_of_the_digits :
    after (fun t => (t.result, t.crc)) (run 7 digitsBlock) =
      some (0xCBF43926#64, 0x340BC6D9#32) := by decide +kernel

/-- S4, K8. -/
theorem test_crccomp_too_small :
    after (·.status) (run 7 (zeroBlock 3#32 0)) = some 0x22#32 := by decide +kernel

/-- K14. -/
theorem test_crcstore_big_endian :
    after (·.mem) (run 8 (zeroBlock 6#32 0xFFFFFFFFCBF43926#64)) =
      some [(0, 0x00#8), (1, 0x00#8), (2, 0xCB#8), (3, 0xF4#8), (4, 0x39#8), (5, 0x26#8)] := by
  decide +kernel

/-- K12. -/
theorem test_crcstore_too_small :
    after (·.status) (run 8 (zeroBlock 3#32 0xCBF43926#64)) = some 0x22#32 := by decide +kernel

/-- K17. -/
theorem test_tblrd :
    after (·.result) (run 9 (State.reset.withData 0x80#64)) = some 0xEDB88320#64 := by
  decide +kernel

/-- K19: only `DATA[7:0]` is the index. -/
theorem test_tblrd_ignores_upper_data :
    after (·.result) (run 9 (State.reset.withData 0x1FF#64)) = some 0x2D02EF8D#64 := by
  decide +kernel

/-- L4. -/
theorem test_illegal_word :
    after (·.status) (run 0x0A State.reset) = some 0x42#32 := by decide +kernel

/-- L7. -/
theorem test_len_is_clamped :
    after (·.len) (step ((loaded []).withInputs [.write 0x0C 4 100#32])) = some 64#32 := by
  decide +kernel

/-- L2. -/
theorem test_status_while_busy :
    after (·.busData) (step (pending 4#32 [readStatus 0] State.reset)) = some 0x1#32 := by
  decide +kernel

/-- L10. -/
theorem test_write_while_busy_is_lost :
    after (·.crc) (step (pending 4#32 [.write 0x20 4 0#32] State.reset)) =
      some 0xFFFFFFFF#32 := by decide +kernel

/-- F3: of the draws for which the write of byte 1 fails, one lets that byte land alone. -/
theorem test_partial_store :
    (wrbits (failAt 3) 4 (withFaults (fieldBlock 6#32 0xF#64))).mem =
      [(0, 0xA5#8), (1, 0xFC#8)] := by decide +kernel

/-- The program of R62's edit of the milliseconds, W17: the inputs its line stands for. -/
theorem test_wrfield_inputs :
    HostLine.inputs 0 (.wrfield 46#32 10 999#64 0) =
      [.write 0x08 4 46#32, .write 0x10 4 999#32, .write 0x14 4 0#32, .write 0 4 0xA2#32, .block,
        .read 0x04 4] := by decide

/-- The reads of `GET CMD`, `GET RESULT_LO`, `GET RESULT_HI` and `GET RESULT`. -/
theorem test_get_inputs :
    ([.get .cmd, .get .resultLo, .get .resultHi, .get .result].map (HostLine.inputs 0)) =
      [[.read 0x00 4], [.read 0x18 4], [.read 0x1C 4], [.read 0x18 4, .read 0x1C 4]] := by decide

/-! ### Witnesses: states and operands that meet the hypotheses of the statements -/

theorem witness_ResetGivesEveryRegisterItsValue :
    (State.reset.withInputs [.reset]).inputs = .reset :: [] ∧
    ResetRegisters (State.reset.withInputs [.write 0 4 7#32]) ∧
    (State.reset.withInputs [.write 0 4 7#32]).inputs =
      .write (State.reset.withInputs [.write 0 4 7#32]).params.regBase 4 7#32 :: [] :=
  ⟨rfl, ⟨rfl, rfl, rfl, rfl, rfl, rfl, rfl, rfl⟩, rfl⟩

/-- A pending `CRCSTORE`, which would write, and a pending `CRCCOMP`, which writes no byte. -/
theorem witness_ResetAbortsThePendingCommand :
    let s := pending 8#32 [.reset] digitsBlock
    let r := pending 7#32 [.reset] digitsBlock
    s.busy = true ∧ s.inputs = .reset :: [] ∧ decode s.pend = .ok .crcstore ∧
    (∃ u, exec .crcstore s.faultFree = .next u) ∧
    r.busy = true ∧ r.inputs = .reset :: [] ∧ decode r.pend = .ok .crccomp ∧
    (∀ w, decode r.pend ≠ .ok (.wrbits w)) ∧ decode r.pend ≠ .ok .crcstore := by
  have h : decode (pending 7#32 [.reset] digitsBlock).pend = .ok .crccomp := by decide
  exact ⟨rfl, rfl, by decide, ⟨_, rfl⟩, rfl, rfl, h, fun w => by rw [h]; simp, by rw [h]; simp⟩

theorem witness_IdleResetKeepsMemory :
    (digitsBlock.withInputs [.reset]).busy = false ∧
    (digitsBlock.withInputs [.reset]).inputs = .reset :: [] := ⟨rfl, rfl⟩

theorem witness_InvariantAtPowerOn :
    (Params.mk (2 ^ 32 - 1) true false 0).memBytes ≤ 2 ^ 32 - 1 ∧
    Memory.wf [(0, 1#8), (2 ^ 32 - 2, 2#8)] = true ∧
    Memory.below (2 ^ 32 - 1) [(0, 1#8), (2 ^ 32 - 2, 2#8)] = true := by decide

theorem digits_inv (l : List Input) : (digitsBlock.withInputs l).Inv :=
  ⟨(by decide : digitsBlock.mem.wf = true), (by decide : digitsBlock.mem.below 64 = true),
    (by decide : digitsBlock.len.toNat ≤ 64), (by decide : 64 ≤ Config.maxMemBytes),
    (fun h => nomatch h), fun _ => rfl⟩

/-- A host write of a byte at the top of memory, and a command issued. -/
theorem witness_EveryStepKeepsTheInvariant :
    (digitsBlock.withInputs [.poke 63 1#8]).Inv ∧
    (∃ t, step (digitsBlock.withInputs [.poke 63 1#8]) = .next t) ∧
    (digitsBlock.withInputs [.write 0 4 8#32]).Inv ∧
    (∃ t, step (digitsBlock.withInputs [.write 0 4 8#32]) = .next t) :=
  ⟨digits_inv _, ⟨_, rfl⟩, digits_inv _, ⟨_, rfl⟩⟩

theorem witness_DecodeOfEncode :
    (Instr.rdbits 1).wellFormed = true ∧ (Instr.rdbits 64).wellFormed = true ∧
    (Instr.wrbits 0).wellFormed = true ∧ (Instr.wrbits 64).wellFormed = true ∧
    Instr.tblrd.wellFormed = true := by decide

theorem witness_EncodeOfDecode :
    decode 0x00000402#32 = .ok (.wrbits 64) ∧ decode 0x00000009#32 = .ok .tblrd := by decide

/-- The word with a width one above the widest, and the zero word. -/
theorem witness_LegalWordsAreExactlyTheTable :
    (∀ n, 1 ≤ n → n ≤ 64 → 0x00000411#32 ≠ 0x00000001#32 ||| (BitVec.ofNat 32 n <<< 4)) ∧
    (∀ n, n ≤ 64 → 0x00000411#32 ≠ 0x00000002#32 ||| (BitVec.ofNat 32 n <<< 4)) ∧
    ¬ (3 ≤ (0x00000411#32).toNat ∧ (0x00000411#32).toNat ≤ 9) := by
  refine ⟨fun n _ hn => ?_, fun n hn => ?_, by decide⟩ <;> interval_cases n <;> decide

theorem witness_StepRunsTheDecodedCommand :
    let s := pending 7#32 [] digitsBlock
    let r := pending 0x402#32 [.block] digitsBlock
    s.busy = true ∧ decode s.pend = .ok .crccomp ∧ s.inputs = [] ∧
    r.busy = true ∧ decode r.pend = .ok (.wrbits 64) ∧ r.inputs = .block :: [] ∧
    decode 0x00000011#32 = .ok (.rdbits 1) ∧
    digitsBlock.busy = false ∧ digitsBlock.inputs = [] ∧
    (digitsBlock.withInputs [.block]).busy = false ∧
    (digitsBlock.withInputs [.block]).inputs = .block :: [] := by
  refine ⟨rfl, by decide, rfl, rfl, by decide, rfl, by decide, rfl, rfl, rfl, rfl⟩

/-- One word for each cause of R78, at the boundary of its range. -/
theorem witness_IllegalWordsCompleteWithIllegal :
    (pending 0#32 [] State.reset).busy = true ∧ (pending 0#32 [] State.reset).inputs = [] ∧
    (pending 0x412#32 [.block] State.reset).busy = true ∧
    (pending 0x412#32 [.block] State.reset).inputs = .block :: [] ∧
    IllegalBits 0x00000000#32 ∧ IllegalBits 0x0000000A#32 ∧ IllegalBits 0x00000801#32 ∧
    IllegalBits 0x00000412#32 ∧ IllegalBits 0x00000001#32 ∧ IllegalBits 0x00000013#32 := by
  refine ⟨rfl, rfl, rfl, rfl, ?_⟩
  unfold IllegalBits
  decide

theorem witness_IssueLatchesTheWord :
    (digitsBlock.withInputs [.write 0 4 0xFFFFFFFF#32]).busy = false ∧
    (digitsBlock.withInputs [.write 0 4 0xFFFFFFFF#32]).inputs =
      .write digitsBlock.params.regBase 4 0xFFFFFFFF#32 :: [] := ⟨rfl, rfl⟩

/-- The first and the last register of the window. -/
theorem witness_BusyWritesAreIgnored :
    let s := pending 4#32 [.write 0 4 9#32, .write 252 4 9#32] State.reset
    s.busy = true ∧ s.params.regBase ≤ 0 ∧ 0 < s.params.regBase + 256 ∧
    (0 - s.params.regBase) % 4 = 0 ∧ s.params.regBase ≤ 252 ∧ 252 < s.params.regBase + 256 ∧
    (252 - s.params.regBase) % 4 = 0 ∧
    s.inputs = .write 0 4 9#32 :: [.write 252 4 9#32] := by decide

theorem witness_PendingCommandCompletesAfterAnyPolling :
    (pending 4#32 (List.replicate 3 (readStatus 0)) State.reset).busy = true ∧
    (pending 4#32 (List.replicate 3 (readStatus 0)) State.reset).inputs =
      List.replicate 3 (readStatus (pending 4#32 [] State.reset).params.regBase) ∧
    (pending 4#32 [] State.reset).busy = true ∧
    (pending 4#32 [] State.reset).inputs = List.replicate 0 (readStatus 0) := by decide

theorem witness_BusyHazardHasBothOutcomes :
    let s := State.reset.withInputs [.write 0 4 4#32, .block, .write 0x20 4 0#32]
    let r := State.reset.withInputs [.write 0 4 4#32, .write 0x20 4 0#32, .block]
    s.busy = false ∧ r.busy = false ∧
    s.inputs = .write s.params.regBase 4 4#32 :: .block ::
      .write (s.params.regBase + 0x20) 4 0#32 :: [] ∧
    r.inputs = .write r.params.regBase 4 4#32 ::
      .write (r.params.regBase + 0x20) 4 0#32 :: .block :: [] := by decide

/-- A stop of each kind, and the accesses just inside. -/
theorem witness_StepStopsOnlyOnForbiddenAccesses :
    Forbidden (loaded []) (.poke 64 0#8) ∧ ¬ Forbidden (loaded []) (.poke 63 0#8) ∧
    Forbidden (loaded []) (.read 256 4) ∧ ¬ Forbidden (loaded []) (.read 252 4) ∧
    Forbidden (loaded []) (.write 2 4 0#32) ∧ Forbidden (loaded []) (.write 0 1 0#32) ∧
    Forbidden ((loaded []).issue 4#32) (.peek 0) := by
  unfold Forbidden
  decide

/-- Values of `LEN` at and above `MEM_BYTES`. -/
theorem witness_LenIsClampedAndKept :
    let s := (loaded []).withInputs [.write 0x0C 4 64#32]
    let r := (loaded []).withInputs [.write 0x0C 4 65#32]
    s.busy = false ∧ s.inputs = .write (s.params.regBase + 0x0C) 4 64#32 :: [] ∧
    r.busy = false ∧ r.inputs = .write (r.params.regBase + 0x0C) 4 65#32 :: [] ∧
    s.len.toNat ≤ s.params.memBytes ∧ (∃ t, step s = .next t) ∧
    (∃ t, exec .crccomp digitsBlock = .next t) :=
  ⟨rfl, rfl, rfl, rfl, by decide, ⟨_, rfl⟩, ⟨_, rfl⟩⟩

theorem witness_DataHalvesAreWrittenApart :
    let s := (loaded []).withInputs [.write 0x10 4 5#32]
    let r := (loaded []).withInputs [.write 0x14 4 5#32]
    s.busy = false ∧ s.inputs = .write (s.params.regBase + 0x10) 4 5#32 :: [] ∧
    r.busy = false ∧ r.inputs = .write (r.params.regBase + 0x14) 4 5#32 :: [] ∧
    (∃ t, exec .crcbyte digitsBlock = .next t) := ⟨rfl, rfl, rfl, rfl, ⟨_, rfl⟩⟩

/-- `OFFSET`, `CRC`, and each register a write of which is ignored. -/
theorem witness_PlainAndReadOnlyRegisterWrites :
    ((loaded []).withInputs [.write 0x08 4 5#32]).busy = false ∧
    ((loaded []).withInputs [.write 0x08 4 5#32]).inputs =
      .write ((loaded []).params.regBase + 0x08) 4 5#32 :: [] ∧
    ((loaded []).withInputs [.write 0x20 4 5#32]).inputs =
      .write ((loaded []).params.regBase + 0x20) 4 5#32 :: [] ∧
    ∀ o ∈ [0x04, 0x18, 0x1C, 0x24, 0xFC], o % 4 = 0 ∧ o < 256 ∧
      (o = 0x04 ∨ o = 0x18 ∨ o = 0x1C ∨ 0x24 ≤ o) ∧
      ((loaded []).withInputs [.write o 4 5#32]).inputs =
        .write ((loaded []).params.regBase + o) 4 5#32 :: [] := by decide

theorem witness_StatusReadsItsFields :
    (pending 4#32 [readStatus 0] State.reset).inputs =
      readStatus (pending 4#32 [readStatus 0] State.reset).params.regBase :: [] := by decide

/-- Every register of the window, the last reserved offset among them. -/
theorem witness_IdleReadsReturnTheRegisters :
    ∀ o ∈ [0x00, 0x04, 0x08, 0x0C, 0x10, 0x14, 0x18, 0x1C, 0x20, 0x24, 0xFC],
      ((loaded []).withInputs [.read o 4]).busy = false ∧ o % 4 = 0 ∧ o < 256 ∧
      ((loaded []).withInputs [.read o 4]).inputs =
        .read ((loaded []).params.regBase + o) 4 :: [] := by decide

theorem witness_BusyReads :
    (∀ o ∈ [0x00, 0x04, 0x08, 0x0C, 0x10, 0x14, 0x18, 0x1C, 0x20, 0x24, 0xFC],
      (pending 4#32 [.read o 4] (loaded [])).busy = true ∧ o % 4 = 0 ∧ o < 256 ∧
      (pending 4#32 [.read o 4] (loaded [])).inputs =
        .read ((loaded []).params.regBase + o) 4 :: []) ∧
    (pending 4#32 [] (loaded [])).busy = true := by decide

/-- The first and the last byte of a memory of 64. -/
theorem witness_HostReachesMemoryOnlyWhileIdle :
    let s := (loaded []).withInputs [.poke 63 1#8]
    let r := (loaded []).withInputs [.peek 0]
    let b := pending 4#32 [.poke 0 1#8] (loaded [])
    s.busy = false ∧ 63 < s.params.memBytes ∧ s.inputs = .poke 63 1#8 :: [] ∧
    r.busy = false ∧ 0 < r.params.memBytes ∧ r.inputs = .peek 0 :: [] ∧
    b.busy = true ∧ b.inputs = .poke 0 1#8 :: [] ∧
    (pending 4#32 [.peek 0] (loaded [])).inputs = .peek 0 :: [] := by decide

/-- The narrowest and the widest field, each ending at the end of the stream, and one bit past it. -/
theorem witness_RdbitsReadsTheField :
    (fieldBlock 15#32 0).params.memPortFaults = false ∧
    (fieldBlock 15#32 0).offset.toNat + 1 ≤ 8 * (fieldBlock 15#32 0).len.toNat ∧
    (wideBlock 8#32).params.memPortFaults = false ∧
    (wideBlock 8#32).offset.toNat + 64 ≤ 8 * (wideBlock 8#32).len.toNat ∧
    8 * (fieldBlock 16#32 0).len.toNat < (fieldBlock 16#32 0).offset.toNat + 1 ∧
    8 * (wideBlock 9#32).len.toNat < (wideBlock 9#32).offset.toNat + 64 ∧
    (withFaults (wideBlock 8#32)).offset.toNat + 64 ≤
      8 * (withFaults (wideBlock 8#32)).len.toNat ∧
    ((0 < 128 ∧ (0 = 0 ∨ 64 < 0)) ∧ (65 < 128 ∧ (65 = 0 ∨ 64 < 65)) ∧
      (127 < 128 ∧ (127 = 0 ∨ 64 < 127))) := by decide

theorem witness_WrbitsWritesTheFieldAndNothingElse :
    (fieldBlock 15#32 1#64).params.memPortFaults = false ∧
    (fieldBlock 15#32 1#64).offset.toNat + 1 ≤ 8 * (fieldBlock 15#32 1#64).len.toNat ∧
    ¬ (fieldBlock 15#32 1#64).Rejects 1 ∧
    (wideBlock 8#32).offset.toNat + 64 ≤ 8 * (wideBlock 8#32).len.toNat ∧
    ¬ (wideBlock 8#32).Rejects 64 ∧
    (∃ t, exec (.wrbits 4) (fieldBlock 6#32 0xF#64) = .next t ∧ t.err = .ok) :=
  ⟨by decide, by decide, by decide, by decide, by decide, ⟨_, rfl, by decide +kernel⟩⟩

/-- Without the value check: widths 0 and 64, and two values alike in their low 4 bits. With it: widths
1 and 63, in and out of range. -/
theorem witness_WrbitsTruncatesOrRejectsWideValues :
    (fieldBlock 6#32 0x1A#64).params.strictValue = false ∧
    (∃ t, exec (.wrbits 0) (fieldBlock 6#32 0x1A#64) = .next t ∧ t.err = .ok) ∧
    (∃ t, exec (.wrbits 64) (wideBlock 8#32) = .next t ∧ t.err = .ok) ∧
    (0xFA#64).toNat % 2 ^ 4 = (fieldBlock 6#32 0x1A#64).data.toNat % 2 ^ 4 ∧
    (strict (fieldBlock 15#32 2#64)).params.strictValue = true ∧
    2 ^ 1 ≤ (strict (fieldBlock 15#32 2#64)).data.toNat ∧
    (strict (fieldBlock 15#32 2#64)).offset.toNat + 1 ≤
      8 * (strict (fieldBlock 15#32 2#64)).len.toNat ∧
    2 ^ 63 ≤ (strict (fieldBlock 16#32 0x8000000000000000#64)).data.toNat ∧
    8 * (strict (fieldBlock 16#32 0x8000000000000000#64)).len.toNat <
      (strict (fieldBlock 16#32 0x8000000000000000#64)).offset.toNat + 63 :=
  ⟨rfl, ⟨_, rfl, rfl⟩, ⟨_, rfl, by decide +kernel⟩, by decide, rfl, by decide, by decide,
    by decide, by decide⟩

/-- One bit past the end, and far past it. -/
theorem witness_WrbitsOutOfRangeHasNoEffect :
    8 * (fieldBlock 16#32 0).len.toNat < (fieldBlock 16#32 0).offset.toNat + 1 ∧
    8 * (fieldBlock 0xFFFFFFFF#32 0).len.toNat <
      (fieldBlock 0xFFFFFFFF#32 0).offset.toNat + 64 := by decide

/-- F2, the last read fails; F3, the last write fails. -/
theorem witness_WrbitsPortFaultLeavesBytesOldOrNew :
    let s := withFaults (fieldBlock 6#32 0xF#64)
    s.offset.toNat + 4 ≤ 8 * s.len.toNat ∧ ¬ s.Rejects 4 ∧
    (wrbits (failAt 1) 4 s).err = .ioError ∧ (wrbits (failAt 3) 4 s).err = .ioError ∧
    ∃ u, exec (.wrbits 4) s.faultFree = .next u :=
  ⟨by decide, by decide, by decide +kernel, by decide +kernel, ⟨_, rfl⟩⟩

/-- Streams that end at the word and one byte short of its end. -/
theorem witness_RduReadsFourBytesBigEndian :
    (wordBlock 1#32).params.memPortFaults = false ∧
    (wordBlock 1#32).offset.toNat + 4 ≤ (wordBlock 1#32).len.toNat ∧
    (wordBlock 2#32).len.toNat < (wordBlock 2#32).offset.toNat + 4 ∧
    (withFaults (wordBlock 1#32)).offset.toNat + 4 ≤
      (withFaults (wordBlock 1#32)).len.toNat := by decide

/-- Words with the `OPC` of a command without a width that are not its word (the lowest bit of `WIDTH`,
and the highest of `RSV`, set). -/
theorem witness_OneWord :
    ∀ opc ∈ [3, 4, 5, 6, 7, 8, 9],
      ((BitVec.ofNat 32 opc ||| 0x10#32).toNat % 16 = opc ∧
        BitVec.ofNat 32 opc ||| 0x10#32 ≠ BitVec.ofNat 32 opc) ∧
      ((BitVec.ofNat 32 opc ||| 0x80000000#32).toNat % 16 = opc ∧
        BitVec.ofNat 32 opc ||| 0x80000000#32 ≠ BitVec.ofNat 32 opc) := by decide

/-- F1, and the same for `RDU32`. -/
theorem witness_FailedReadsKeepResultAndMemory :
    (fieldBlock 6#32 0).offset.toNat + 4 ≤ 8 * (fieldBlock 6#32 0).len.toNat ∧
    (wordBlock 1#32).offset.toNat + 4 ≤ (wordBlock 1#32).len.toNat ∧
    (rdbits (failAt 0) 4 (withFaults (fieldBlock 6#32 0))).err = .ioError ∧
    (rdu32 (failAt 3) (withFaults (wordBlock 1#32))).err = .ioError := by decide +kernel

/-- The last word, the last two bytes, of their streams. -/
theorem witness_MixedWidthViewsAgree :
    (wordBlock 0#32).params.memPortFaults = false ∧ (1#32).toNat = 1 ∧ (8#32).toNat = 8 * 1 ∧
    1 + 4 ≤ (wordBlock 0#32).len.toNat ∧ (24#32).toNat = 8 * 3 ∧
    3 + 2 ≤ (wordBlock 0#32).len.toNat ∧ (28#32).toNat = 8 * 3 + 4 := by decide

theorem witness_WriteThenReadReturnsTheValue :
    (fieldBlock 6#32 0x1A#64).params.memPortFaults = false ∧
    (fieldBlock 6#32 0x1A#64).params.strictValue = false ∧
    (fieldBlock 6#32 0x1A#64).offset.toNat + 4 ≤ 8 * (fieldBlock 6#32 0x1A#64).len.toNat ∧
    (wideBlock 8#32).offset.toNat + 64 ≤ 8 * (wideBlock 8#32).len.toNat := by decide

/-- Fields that meet at bit 3 of a byte, either of them the lower; and a write that fails beside reads
that do not. -/
theorem witness_ReadsAreIndependentOfOtherFields :
    (fieldBlock 0#32 0).params.memPortFaults = false ∧
    ((0#32).toNat + 3 ≤ (3#32).toNat ∨ (3#32).toNat + 64 ≤ (0#32).toNat) ∧
    ((3#32).toNat + 1 ≤ (0#32).toNat ∨ (0#32).toNat + 3 ≤ (3#32).toNat) ∧
    (let s := withFaults (fieldBlock 0#32 0xF#64);
      (rdbits (failAt 9) 3 (s.withOffset 0#32)).err = .ok ∧
      (wrbits (failAt 2) 6 (s.withOffset 3#32)).err = .ioError ∧
      (rdbits (failAt 9) 3 ((wrbits (failAt 2) 6 (s.withOffset 3#32)).withOffset 0#32)).err =
        .ok) := by decide +kernel

/-- The narrowest and the widest field. -/
theorem witness_SpanHasAtMostNineBytes :
    (1 ≤ 1 ∧ 1 ≤ 64) ∧ (1 ≤ 64 ∧ 64 ≤ 64) ∧ spanBytes 7 1 = 1 ∧ spanBytes 1 64 = 9 := by decide

/-- A stream of the slot alone, and one too short for it. -/
theorem witness_CrccompSumsTheStreamWithoutItsSlot :
    (zeroBlock 4#32 0).params.memPortFaults = false ∧ 4 ≤ (zeroBlock 4#32 0).len.toNat ∧
    (zeroBlock 3#32 0).len.toNat < 4 ∧ 4 ≤ (withFaults (zeroBlock 4#32 0)).len.toNat := by
  decide

theorem witness_CrcstoreWritesTheSlotBigEndian :
    (zeroBlock 4#32 5#64).params.memPortFaults = false ∧ 4 ≤ (zeroBlock 4#32 5#64).len.toNat ∧
    (zeroBlock 3#32 5#64).len.toNat < 4 ∧ 4 ≤ (withFaults (zeroBlock 4#32 5#64)).len.toNat := by
  decide

/-- F4, F5. -/
theorem witness_ChecksumPortFaults :
    4 ≤ (withFaults digitsBlock).len.toNat ∧
    (crccomp (failAt 5) (withFaults digitsBlock)).err = .ioError ∧
    (crcstore (failAt 0) (withFaults (zeroBlock 6#32 5#64))).err = .ioError ∧
    ∃ u, exec .crcstore (withFaults (zeroBlock 6#32 5#64)).faultFree = .next u :=
  ⟨by decide, by decide +kernel, by decide +kernel, ⟨_, rfl⟩⟩

/-- An index R120 lists, with bits of `DATA` above it. -/
theorem witness_TblrdReturnsATableEntry :
    (State.reset.withData 0x1FF#64).data.toNat % 256 = 0xFF ∧
    (0xFF, 0x2D02EF8D) ∈ [(0x00, 0x00000000), (0x01, 0x77073096), (0x02, 0xEE0E612C),
      (0x03, 0x990951BA), (0x04, 0x076DC419), (0x08, 0x0EDB8832), (0x10, 0x1DB71064),
      (0x40, 0x76DC4190), (0x80, 0xEDB88320), (0xFF, 0x2D02EF8D)] := by decide

theorem witness_FoldingByCommandsIsCrccomp :
    digitsBlock.params.memPortFaults = false ∧ 4 ≤ digitsBlock.len.toNat ∧
    4 ≤ (zeroBlock 4#32 0).len.toNat := by decide

theorem witness_StoredChecksumIsConsistent :
    digitsBlock.params.memPortFaults = false ∧ 4 ≤ digitsBlock.len.toNat ∧
    (9#32).toNat = digitsBlock.len.toNat - 4 := by decide

/-- Two streams that differ in their slots. -/
theorem witness_CrccompIgnoresTheSlot :
    digitsBlock.params.memPortFaults = false ∧ otherSlotBlock.params.memPortFaults = false ∧
    4 ≤ digitsBlock.len.toNat ∧ otherSlotBlock.len = digitsBlock.len ∧
    (∀ a, a + 4 < digitsBlock.len.toNat → otherSlotBlock.mem.read a = digitsBlock.mem.read a) ∧
    otherSlotBlock.mem ≠ digitsBlock.mem ∧
    (crccomp (failAt 9) (withFaults digitsBlock)).err = .ok ∧
    (crccomp (failAt 10) (withFaults otherSlotBlock)).err = .ok := by
  refine ⟨rfl, rfl, by decide, rfl, fun a ha => ?_, by decide, by decide +kernel,
    by decide +kernel⟩
  have h : a < 9 := by have : digitsBlock.len.toNat = 13 := rfl; omega
  interval_cases a <;> rfl

/-- A well-formed command, and a pending word that does not decode. -/
theorem witness_StatusCodesAndTheirCauses :
    (Instr.rdbits 64).wellFormed = true ∧ (digitsBlock.params.memPortFaults = false) ∧
    (pending 0#32 [] State.reset).busy = true ∧
    decode (pending 0#32 [] State.reset).pend = .error .opcode ∧
    (pending 0#32 [] State.reset).inputs = [] ∧
    (pending 0x801#32 [.block] State.reset).busy = true ∧
    decode (pending 0x801#32 [.block] State.reset).pend = .error .reservedBits ∧
    (pending 0x801#32 [.block] State.reset).inputs = .block :: [] := by
  refine ⟨by decide, rfl, rfl, by decide, rfl, rfl, by decide, rfl⟩

/-- An illegal word; and each check met together with every later one. -/
theorem witness_ErrorsAreReportedInOrder :
    ((pending 0x411#32 [] State.reset).busy = true ∧
      IllegalBits (pending 0x411#32 [] State.reset).pend ∧
      (pending 0x411#32 [] State.reset).inputs = [] ∧
      (pending 0x411#32 [.block] State.reset).inputs = .block :: []) ∧
    (let s := strict (withFaults (fieldBlock 16#32 2#64));
      8 * s.len.toNat < s.offset.toNat + 1 ∧ s.Rejects 1) ∧
    (wordBlock 2#32).len.toNat < (wordBlock 2#32).offset.toNat + 4 ∧
    (zeroBlock 3#32 0).len.toNat < 4 ∧
    (let s := strict (withFaults (fieldBlock 15#32 2#64));
      s.offset.toNat + 1 ≤ 8 * s.len.toNat ∧ s.Rejects 1) := by
  refine ⟨⟨rfl, ?_, rfl, rfl⟩, by decide, by decide, by decide, by decide⟩
  unfold IllegalBits
  decide

/-- One command for each of the three codes. -/
theorem witness_CheckedErrorsArePrecise :
    (∃ t, exec (.rdbits 1) (fieldBlock 16#32 0) = .next t ∧ t.err = .outOfRange) ∧
    (∃ t, exec .crcstore (zeroBlock 3#32 0) = .next t ∧ t.err = .tooSmall) ∧
    (∃ t, exec (.wrbits 1) (strict (fieldBlock 15#32 2#64)) = .next t ∧ t.err = .valueRange) :=
  ⟨⟨_, rfl, rfl⟩, ⟨_, rfl, rfl⟩, ⟨_, rfl, rfl⟩⟩

theorem witness_EveryPartialStoreIsAdmitted :
    (let s := withFaults (fieldBlock 6#32 0xF#64);
      s.params.memPortFaults = true ∧ s.offset.toNat + 4 ≤ 8 * s.len.toNat ∧ ¬ s.Rejects 4 ∧
      (∃ u, exec (.wrbits 4) s.faultFree = .next u) ∧ 1 < spanBytes s.offset.toNat 4) ∧
    (withFaults (zeroBlock 4#32 5#64)).params.memPortFaults = true ∧
    4 ≤ (withFaults (zeroBlock 4#32 5#64)).len.toNat ∧
    (∃ u, exec .crcstore (withFaults (zeroBlock 4#32 5#64)).faultFree = .next u) ∧
    (pending 8#32 [.reset] (zeroBlock 4#32 5#64)).busy = true ∧
    decode (pending 8#32 [.reset] (zeroBlock 4#32 5#64)).pend = .ok .crcstore ∧
    (pending 8#32 [.reset] (zeroBlock 4#32 5#64)).inputs = .reset :: [] :=
  ⟨⟨rfl, by decide, by decide, ⟨_, rfl⟩, by decide⟩, rfl, by decide, ⟨_, rfl⟩, rfl, by decide,
    rfl⟩

/-- A store, a command that returns a value, and one that ends in an error. -/
theorem witness_CommandsWriteOnlyTheirRegisters :
    (∃ t, exec .crcstore (zeroBlock 4#32 5#64) = .next t) ∧
    (∃ t, exec (.wrbits 4) (fieldBlock 6#32 0xF#64) = .next t) ∧
    (∃ t, exec .tblrd State.reset = .next t ∧ t.err = .ok) ∧
    (∃ t, exec .crccomp State.reset = .next t ∧ t.err ≠ .ok) :=
  ⟨⟨_, rfl⟩, ⟨_, rfl⟩, ⟨_, rfl, rfl⟩, ⟨_, rfl, fun h => nomatch h⟩⟩

/-- Two memories that agree on the four bytes of the stream and not above it. -/
theorem witness_BytesAboveLenAreUntouched :
    Instr.crcstore.wellFormed = true ∧
    (∀ a, a < (zeroBlock 4#32 5#64).len.toNat →
      Memory.read [(0, 0#8), (1, 0#8), (2, 0#8), (3, 0#8), (4, 1#8)] a =
        (zeroBlock 4#32 5#64).mem.read a) ∧
    Memory.read [(0, 0#8), (1, 0#8), (2, 0#8), (3, 0#8), (4, 1#8)] 4 ≠
      (zeroBlock 4#32 5#64).mem.read 4 := by
  refine ⟨rfl, fun a ha => ?_, by decide +kernel⟩
  have h : a < 4 := ha
  interval_cases a <;> rfl

theorem witness_CommandsOnTheEmptyStream :
    (Instr.rdbits 1).wellFormed = true ∧ (Instr.wrbits 0).wellFormed = true ∧
    State.reset.len = 0#32 := by decide

end Sys2Proof.Tests
end

