-- ==== Sys2Proof/Proofs/Invariant.lean ====
section
/-! PROOFS. The invariant holds at power-on and every step keeps it: first what each operation on the
state does to the invariant, then each agent's turn, then the step. -/

namespace Sys2Proof.Machine

section

variable {s t : State}

/-! ### Power-on -/

theorem inv_powerOn {p : Params} {m : Memory} (hsize : p.memBytes ≤ Config.maxMemBytes)
    (hwf : m.wf = true) (hbelow : m.below p.memBytes = true) : (State.powerOn p m).Inv where
  sorted := hwf
  exist := hbelow
  lenFits := Nat.zero_le _
  size := hsize
  busyNotDone := fun _ => rfl
  errClear := fun _ => rfl

/-! ### Operations on the state -/

/-- The invariant is about `M`, `LEN`, `STATUS` and the parameters only. -/
theorem State.Inv.congr (h : s.Inv) (hmem : t.mem = s.mem) (hlen : t.len = s.len)
    (hbusy : t.busy = s.busy) (hdone : t.done = s.done) (herr : t.err = s.err)
    (hparams : t.params = s.params) : t.Inv where
  sorted := hmem ▸ h.sorted
  exist := by rw [hmem, hparams]; exact h.exist
  lenFits := by rw [hlen, hparams]; exact h.lenFits
  size := hparams ▸ h.size
  busyNotDone := by rw [hbusy, hdone]; exact h.busyNotDone
  errClear := by rw [hdone, herr]; exact h.errClear

theorem State.Inv.withOffset (h : s.Inv) (v : Word) : (s.withOffset v).Inv :=
  h.congr rfl rfl rfl rfl rfl rfl

theorem State.Inv.withData (h : s.Inv) (v : DWord) : (s.withData v).Inv :=
  h.congr rfl rfl rfl rfl rfl rfl

theorem State.Inv.withResult (h : s.Inv) (v : DWord) : (s.withResult v).Inv :=
  h.congr rfl rfl rfl rfl rfl rfl

theorem State.Inv.withCrc (h : s.Inv) (v : Word) : (s.withCrc v).Inv :=
  h.congr rfl rfl rfl rfl rfl rfl

theorem State.Inv.withInputs (h : s.Inv) (l : List Input) : (s.withInputs l).Inv :=
  h.congr rfl rfl rfl rfl rfl rfl

theorem State.Inv.withBusData (h : s.Inv) (v : Word) : (s.withBusData v).Inv :=
  h.congr rfl rfl rfl rfl rfl rfl

theorem State.Inv.nextDraw (h : s.Inv) : s.nextDraw.Inv :=
  h.congr rfl rfl rfl rfl rfl rfl

theorem State.Inv.withMem (h : s.Inv) {m : Memory} (hwf : m.wf = true)
    (hbelow : m.below s.params.memBytes = true) : (s.withMem m).Inv :=
  { h with sorted := hwf, exist := hbelow }

theorem State.Inv.withLen (h : s.Inv) {v : Word} (hv : v.toNat ≤ s.params.memBytes) :
    (s.withLen v).Inv :=
  { h with lenFits := hv }

/-- An issue clears `DONE` and `ERR` as it sets `BUSY` (R31). -/
theorem State.Inv.issue (h : s.Inv) (w : Word) : (s.issue w).Inv :=
  { h with busyNotDone := fun _ => rfl, errClear := fun _ => rfl }

/-- A completion clears `BUSY` as it sets `DONE`, so any code may stand in `ERR` (R32). -/
theorem State.Inv.complete (h : s.Inv) (c : Status) : (s.complete c).Inv :=
  { h with
    busyNotDone := fun hbusy => absurd hbusy Bool.false_ne_true
    errClear := fun hdone => absurd hdone.symm Bool.false_ne_true }

theorem State.Inv.returning (h : s.Inv) (v : DWord) : (s.returning v).Inv :=
  (h.withResult v).complete .ok

/-! ### Commands -/

/-- Whichever bytes of a command's store land, they lie below `LEN`, so they exist (R21, R56). -/
theorem State.Inv.withMem_storeOf (h : s.Inv) {i : Instr} {a : Nat} {bytes : List Byte}
    (hstore : s.storeOf i = some (a, bytes)) (land : Nat → Bool) :
    (s.withMem (s.mem.storeSome land a 0 bytes)).Inv := by
  have hstream : a + bytes.length ≤ s.len.toNat := storeOf_in_stream hstore
  have hexist : a + 0 + bytes.length ≤ s.params.memBytes := hstream.trans h.lenFits
  exact h.withMem (storeSome_wf land a 0 bytes h.sorted)
    (storeSome_below land a 0 bytes hexist h.exist)

theorem exec_keeps_inv {i : Instr} (h : s.Inv) (ht : exec i s = .next t) : t.Inv := by
  rcases exec_cases ht with
    ⟨c, rfl⟩ | ⟨v, rfl⟩ | ⟨v, c, rfl⟩ | ⟨v, x, rfl⟩ | ⟨a, bytes, land, c, hstore, rfl⟩
  · exact h.complete c
  · exact h.returning v
  · exact (h.withCrc v).complete c
  · exact (h.withCrc v).returning x
  · exact (h.withMem_storeOf hstore land).complete c

theorem blockTurn_keeps_inv (h : s.Inv) (ht : blockTurn s = .next t) : t.Inv := by
  rcases blockTurn_cases ht with ⟨_, rfl⟩ | ⟨_, _, _, rfl⟩ | ⟨_, i, _, hexec⟩
  · exact h
  · exact h.complete .illegal
  · exact exec_keeps_inv h hexec

/-! ### Host accesses -/

/-- `LEN` is clamped as it is written (R25). -/
theorem clampedLen_le (v : Word) (n : Nat) : (BitVec.ofNat 32 (min v.toNat n)).toNat ≤ n := by
  rw [BitVec.toNat_ofNat]
  exact (Nat.mod_le _ _).trans (min_le_right _ _)

theorem State.Inv.writeIdle (h : s.Inv) (r : Reg) (v : Word) : (s.writeIdle r v).Inv := by
  cases r with
  | cmd => exact h.issue v
  | offset => exact h.withOffset v
  | len => exact h.withLen (clampedLen_le v s.params.memBytes)
  | dataLo => exact h.withData _
  | dataHi => exact h.withData _
  | crc => exact h.withCrc v
  | status | resultLo | resultHi | reserved => exact h

theorem State.Inv.writeReg (h : s.Inv) (r : Reg) (v : Word) : (s.writeReg r v).Inv := by
  unfold State.writeReg
  split
  · exact h
  · exact h.writeIdle r v

theorem State.Inv.readReg (h : s.Inv) (v : Word) (r : Reg) : (s.readReg v r).Inv := by
  unfold State.readReg
  split
  · exact (h.withBusData v).nextDraw
  · exact h.withBusData _

/-! ### Reset -/

/-- A reset leaves `M` as it is, or with some bytes of the aborted command's store (R181, R182). -/
theorem abortedMem_cases (s : State) (land : Nat → Bool) :
    s.abortedMem land = s.mem ∨
      ∃ i a bytes, s.storeOf i = some (a, bytes) ∧
        s.abortedMem land = s.mem.storeSome land a 0 bytes := by
  unfold State.abortedMem
  split
  · split
    · exact .inl rfl
    · rename_i i _
      split
      · exact .inl rfl
      · rename_i a bytes hstore
        exact .inr ⟨i, a, bytes, hstore, rfl⟩
  · exact .inl rfl

theorem State.Inv.withMem_abortedMem (h : s.Inv) (land : Nat → Bool) :
    (s.withMem (s.abortedMem land)).Inv := by
  rcases abortedMem_cases s land with hkept | ⟨i, a, bytes, hstore, haborted⟩
  · rw [hkept]; exact h.withMem h.sorted h.exist
  · rw [haborted]; exact h.withMem_storeOf hstore land

/-- A reset is a power-on with the memory the abort leaves. -/
theorem State.Inv.resetBlock (h : s.Inv) (d : PortDraws) : (resetBlock d s).Inv := by
  have hmem : (s.withMem (s.abortedMem d.landed)).Inv := h.withMem_abortedMem d.landed
  have hpower : (State.powerOn s.params (s.abortedMem d.landed)).Inv :=
    inv_powerOn h.size hmem.sorted hmem.exist
  exact hpower.congr rfl rfl rfl rfl rfl rfl

/-! ### The step -/

theorem step_keeps_inv (h : s.Inv) (ht : step s = .next t) : t.Inv := by
  rcases step_cases ht with ⟨_, hblock⟩ | ⟨rest, hcases⟩
  · exact blockTurn_keeps_inv h hblock
  have hrest : (s.withInputs rest).Inv := h.withInputs rest
  rcases hcases with ⟨_, hblock⟩ | ⟨_, _, v, r, _, _, rfl⟩ | ⟨_, _, r, _, _, rfl⟩ |
    ⟨a, b, _, _, hexists, rfl⟩ | ⟨_, _, _, _, rfl⟩ | ⟨_, rfl⟩
  · exact blockTurn_keeps_inv hrest hblock
  · exact hrest.writeReg r v
  · exact hrest.readReg _ r
  · exact hrest.withMem (store_wf a b h.sorted) (store_below b hexists h.exist)
  · exact hrest.withBusData _
  · exact hrest.resetBlock _

end

/-! ### The statements -/

/-- Settles O5: by what each agent's turn does to the invariant (`step_keeps_inv`). -/
theorem everyStepKeepsTheInvariant : Obligations.EveryStepKeepsTheInvariant :=
  fun _ _ h ht => step_keeps_inv h ht

/-- Settles O4: power-on for any admitted parameters, and `State.reset` as the case of the default
ones with no byte written. -/
theorem invariantAtPowerOn : Obligations.InvariantAtPowerOn :=
  ⟨fun _ _ hsize hwf hbelow => inv_powerOn hsize hwf hbelow, inv_powerOn le_rfl rfl rfl⟩

end Sys2Proof.Machine
end

