-- ==== Sys2Proof/Proofs/StateAccess.lean ====
section
/-! PROOFS. What the agents do to the registers and the bytes of `M`: what a command writes, what
its status code says and which bytes it depends on; then what each access of the host does; then the
runs in which the two meet. -/

namespace Sys2Proof.Machine

/-! ### What a command writes -/

/-- A command ends with one status code (R32). -/
theorem exec_completes {i : Instr} {s t : State} (h : exec i s = .next t) : Completed t t.err := by
  rcases exec_cases h with
    ⟨c, rfl⟩ | ⟨v, rfl⟩ | ⟨v, c, rfl⟩ | ⟨v, x, rfl⟩ | ⟨a, bytes, land, c, _, rfl⟩ <;>
  exact ⟨rfl, rfl, rfl⟩

/-- No command writes an operand register (R77). -/
theorem exec_keepsOperands {i : Instr} {s t : State} (h : exec i s = .next t) :
    KeepsOperands s t := by
  rcases exec_cases h with
    ⟨c, rfl⟩ | ⟨v, rfl⟩ | ⟨v, c, rfl⟩ | ⟨v, x, rfl⟩ | ⟨a, bytes, land, c, _, rfl⟩ <;>
  exact ⟨rfl, rfl, rfl, rfl, rfl, rfl, rfl⟩

/-- What a command that only returns a value does: an error alone, or `OK` and the value. -/
def ReturnsOrFails (s t : State) : Prop :=
  (∃ c, c ≠ .ok ∧ t = s.complete c) ∨ ∃ v, t = s.returning v

/-- What a command that stores does: it writes some of the `n` bytes from address `a` up. -/
def Stores (s t : State) (a n : Nat) : Prop :=
  ∃ m c, t = (s.withMem m).complete c ∧ SameBytesOutside s t a n

/-- The writes each command may make (R77). -/
def CommandWrites (s t : State) : Instr → Prop
  | .rdbits _ => ReturnsOrFails s t
  | .wrbits w => Stores s t (spanFirst s.off) (spanBytes s.off w)
  | .rdu32 => ReturnsOrFails s t
  | .crcinit => ∃ v, t = (s.withCrc v).complete .ok
  | .crcbyte => ∃ v, t = (s.withCrc v).complete .ok
  | .crcfinal => ReturnsOrFails s t
  | .crccomp => ∃ v, ReturnsOrFails (s.withCrc v) t
  | .crcstore => Stores s t s.slot 4
  | .tblrd => ReturnsOrFails s t

theorem stores_nothing (s : State) (c : Status) (a n : Nat) : Stores s (s.complete c) a n :=
  ⟨s.mem, c, rfl, fun _ _ => rfl⟩

theorem stores_storeSome (s : State) (c : Status) (land : Nat → Bool) (a : Nat)
    (bytes : List Byte) :
    Stores s ((s.withMem (s.mem.storeSome land a 0 bytes)).complete c) a bytes.length :=
  ⟨_, c, rfl, fun b hb => read_storeSome_outside land s.mem a bytes b hb⟩

/-- Every command makes only the writes R77 allows it. -/
theorem exec_writes {i : Instr} {s t : State} (h : exec i s = .next t) : CommandWrites s t i := by
  cases i <;> cases h
  case rdbits w =>
    rcases rdbits_cases (Config.portDraws s.draws) w s with ⟨_, e⟩ | ⟨_, _, e⟩ | ⟨_, _, e⟩
    · exact .inl ⟨.outOfRange, nofun, e⟩
    · exact .inl ⟨.ioError, nofun, e⟩
    · exact .inr ⟨_, e⟩
  case wrbits w =>
    have hstore := stores_storeSome s (a := spanFirst s.off) (bytes := s.merged s.off w)
    rw [merged_length] at hstore
    rcases wrbits_cases (Config.portDraws s.draws) w s with
      ⟨_, e⟩ | ⟨_, _, e⟩ | ⟨_, _, _, e⟩ | ⟨_, _, _, _, e⟩ | ⟨_, _, _, _, _, e⟩ |
      ⟨_, _, _, _, _, e⟩ <;> rw [e]
    · exact stores_nothing s _ _ _
    · exact stores_nothing s _ _ _
    · exact stores_nothing s _ _ _
    · exact stores_nothing s _ _ _
    · exact hstore _ _
    · exact hstore _ _
  case rdu32 =>
    rcases rdu32_cases (Config.portDraws s.draws) s with ⟨_, e⟩ | ⟨_, _, e⟩ | ⟨_, _, e⟩
    · exact .inl ⟨.outOfRange, nofun, e⟩
    · exact .inl ⟨.ioError, nofun, e⟩
    · exact .inr ⟨_, e⟩
  case crcinit => exact ⟨_, rfl⟩
  case crcbyte => exact ⟨_, rfl⟩
  case crcfinal => exact .inr ⟨_, rfl⟩
  case crccomp =>
    rcases crccomp_cases (Config.portDraws s.draws) s with ⟨_, e⟩ | ⟨_, _, e⟩ | ⟨_, _, e⟩
    · exact ⟨s.crc, .inl ⟨.tooSmall, nofun, e⟩⟩
    · exact ⟨_, .inl ⟨.ioError, nofun, e⟩⟩
    · exact ⟨_, .inr ⟨_, e⟩⟩
  case crcstore =>
    rcases crcstore_cases (Config.portDraws s.draws) s with ⟨_, e⟩ | ⟨_, _, e⟩ | ⟨_, _, e⟩ <;>
      rw [e]
    · exact stores_nothing s _ _ _
    · exact stores_storeSome s _ _ _ _
    · exact stores_storeSome s _ _ _ _
  case tblrd => exact .inr ⟨_, rfl⟩

theorem ReturnsOrFails.crc {s t : State} (h : ReturnsOrFails s t) : t.crc = s.crc := by
  rcases h with ⟨c, _, rfl⟩ | ⟨v, rfl⟩ <;> rfl

theorem ReturnsOrFails.bytes {s t : State} (h : ReturnsOrFails s t) : SameBytes s t := by
  rcases h with ⟨c, _, rfl⟩ | ⟨v, rfl⟩ <;> exact fun _ => rfl

theorem ReturnsOrFails.result {s t : State} (h : ReturnsOrFails s t) (herr : t.err ≠ .ok) :
    t.result = s.result := by
  rcases h with ⟨c, _, rfl⟩ | ⟨v, rfl⟩
  · rfl
  · exact absurd rfl herr

theorem Stores.crc {s t : State} {a n : Nat} (h : Stores s t a n) : t.crc = s.crc := by
  obtain ⟨m, c, rfl, _⟩ := h
  rfl

theorem Stores.result {s t : State} {a n : Nat} (h : Stores s t a n) : t.result = s.result := by
  obtain ⟨m, c, rfl, _⟩ := h
  rfl

theorem Stores.outside {s t : State} {a n : Nat} (h : Stores s t a n) :
    SameBytesOutside s t a n := by
  obtain ⟨m, c, _, houtside⟩ := h
  exact houtside

/-- `CRC` is written by `CRCINIT`, `CRCBYTE` and `CRCCOMP` only (R77). -/
theorem exec_keeps_crc {i : Instr} {s t : State} (h : exec i s = .next t)
    (hinit : i ≠ .crcinit) (hbyte : i ≠ .crcbyte) (hcomp : i ≠ .crccomp) : t.crc = s.crc := by
  have hw := exec_writes h
  cases i with
  | rdbits w | rdu32 | crcfinal | tblrd => exact hw.crc
  | wrbits w | crcstore => exact hw.crc
  | crcinit => exact absurd rfl hinit
  | crcbyte => exact absurd rfl hbyte
  | crccomp => exact absurd rfl hcomp

/-- `RESULT` is written only by a command that returns a value, and only with `OK` (R27, R77). -/
theorem exec_keeps_result {i : Instr} {s t : State} (h : exec i s = .next t)
    (hi : (∃ w, i = .wrbits w) ∨ i = .crcinit ∨ i = .crcbyte ∨ i = .crcstore ∨ t.err ≠ .ok) :
    t.result = s.result := by
  have hw := exec_writes h
  cases i with
  | rdbits w | rdu32 | crcfinal | tblrd => exact hw.result (by simpa using hi)
  | wrbits w | crcstore => exact hw.result
  | crcinit | crcbyte => obtain ⟨v, rfl⟩ := hw; rfl
  | crccomp => obtain ⟨v, hret⟩ := hw; exact hret.result (by simpa using hi)

/-- Bytes of `M` are written by `WRBITS` and `CRCSTORE` only (R59). -/
theorem exec_keeps_bytes {i : Instr} {s t : State} (h : exec i s = .next t)
    (hwr : ∀ w, i ≠ .wrbits w) (hst : i ≠ .crcstore) : SameBytes s t := by
  have hw := exec_writes h
  cases i with
  | rdbits w | rdu32 | crcfinal | tblrd => exact hw.bytes
  | wrbits w => exact absurd rfl (hwr w)
  | crcstore => exact absurd rfl hst
  | crcinit | crcbyte => obtain ⟨v, rfl⟩ := hw; exact fun _ => rfl
  | crccomp => obtain ⟨v, hret⟩ := hw; exact hret.bytes

/-- Settles O52: clause by clause from the writes each command may make (`exec_writes`). -/
theorem commandsWriteOnlyTheirRegisters : Obligations.CommandsWriteOnlyTheirRegisters := by
  intro i s t h
  refine ⟨exec_keepsOperands h, exec_keeps_crc h, exec_keeps_result h, exec_keeps_bytes h, ?_, ?_⟩
  · rintro w rfl; exact Stores.outside (exec_writes h)
  · rintro rfl; exact Stores.outside (exec_writes h)

/-! ### The block's turn -/

/-- The block's turn always answers a next state (R20, R32). -/
theorem blockTurn_answers_next (s : State) : ∃ t, blockTurn s = .next t := by
  cases hb : s.busy
  · exact ⟨s, blockTurn_of_idle hb⟩
  · cases hd : decode s.pend with
    | ok i => rw [blockTurn_of_decode hb hd]; exact exec_answers_next i s
    | error e => exact ⟨_, blockTurn_of_illegal hb hd⟩

/-- The block's turn completes a pending command, legal or not (R32). -/
theorem blockTurn_completes {s : State} (hb : s.busy = true) :
    ∃ t, blockTurn s = .next t ∧ t.busy = false ∧ t.done = true := by
  obtain ⟨t, ht⟩ := blockTurn_answers_next s
  refine ⟨t, ht, ?_⟩
  rcases blockTurn_cases ht with ⟨hidle, _⟩ | ⟨_, _, _, rfl⟩ | ⟨_, i, _, hexec⟩
  · rw [hb] at hidle; cases hidle
  · exact ⟨rfl, rfl⟩
  · exact ⟨(exec_completes hexec).busy, (exec_completes hexec).done⟩

/-- The block's turn writes neither `LEN` nor the parameters (R25). -/
theorem blockTurn_keeps_len {s t : State} (h : blockTurn s = .next t) :
    t.len = s.len ∧ t.params = s.params := by
  rcases blockTurn_cases h with ⟨_, rfl⟩ | ⟨_, _, _, rfl⟩ | ⟨_, i, _, hexec⟩
  · exact ⟨rfl, rfl⟩
  · exact ⟨rfl, rfl⟩
  · exact ⟨(exec_keepsOperands hexec).len, (exec_keepsOperands hexec).params⟩

/-- The step in which the block is granted its turn. -/
theorem step_block {s : State} {rest : List Input} (hi : s.inputs = .block :: rest) :
    step s = blockTurn (s.withInputs rest) :=
  step_input hi

theorem ofNat_toNat_of_word (w : Word) : BitVec.ofNat 32 (w.toNat % 2 ^ 32) = w := by
  rw [Nat.mod_eq_of_lt w.isLt, BitVec.ofNat_toNat, BitVec.setWidth_eq]

/-- The step after the placing of a word is the block's turn after its issue (R31, R32). -/
theorem step_withFetchWord (s : State) (w : Word) :
    step (s.withFetchWord 32 w.toNat) = blockTurn (s.issue w) := by
  rw [State.withFetchWord, ofNat_toNat_of_word]
  exact step_input (s := s.issued w) (rest := s.inputs) rfl

/-- A pending illegal word completes with `ILLEGAL`, however the block comes to its turn (R78). -/
theorem step_block_of_illegal {s : State} {e : IllegalWord} {rest : List Input}
    (hb : s.busy = true) (hd : decode s.pend = .error e)
    (hi : s.inputs = [] ∨ s.inputs = .block :: rest) :
    ∃ t, step s = .next t ∧ Completed t .illegal := by
  rcases hi with hi | hi
  · exact ⟨_, (step_no_input hi).trans (blockTurn_of_illegal hb hd), completed_complete _ _⟩
  · exact ⟨_, (step_block hi).trans (blockTurn_of_illegal (s := s.withInputs rest) hb hd),
      completed_complete _ _⟩

/-- Settles O11: each way to the block's turn, then what the turn is. -/
theorem stepRunsTheDecodedCommand : Obligations.StepRunsTheDecodedCommand := by
  refine ⟨?_, ?_, ?_, ?_, ?_⟩
  · intro s i hb hd hi
    rw [step_no_input hi, blockTurn_of_decode hb hd]
  · intro s i rest hb hd hi
    rw [step_block hi, blockTurn_of_decode (s := s.withInputs rest) hb hd]
  · intro s w i hd
    rw [step_withFetchWord, blockTurn_of_decode (issue_busy s w) hd]
  · intro s hb hi
    rw [step_no_input hi, blockTurn_of_idle hb]
  · intro s rest hb hi
    rw [step_block hi, blockTurn_of_idle (s := s.withInputs rest) hb]

/-! ### Which status code a command ends with -/

/-- The code of the checks a command makes before it reaches `M` (R100, R105, R131, R133). -/
def State.check (s : State) : Instr → Status
  | .rdbits w => if s.InRange s.off w then .ok else .outOfRange
  | .wrbits w =>
    if w = 0 then .ok
    else if s.InRange s.off w then
      if s.params.strictValue = true ∧ s.ValueTooWide w then .valueRange else .ok
    else .outOfRange
  | .rdu32 => if s.InRange (8 * s.off) 32 then .ok else .outOfRange
  | .crcinit => .ok
  | .crcbyte => .ok
  | .crcfinal => .ok
  | .crccomp => if s.HasSlot then .ok else .tooSmall
  | .crcstore => if s.HasSlot then .ok else .tooSmall
  | .tblrd => .ok

/-- The commands that make no access of `M` (R104, R77). -/
def NoAccess (i : Instr) : Prop :=
  i = .wrbits 0 ∨ i = .crcinit ∨ i = .crcbyte ∨ i = .crcfinal ∨ i = .tblrd

/-- A failed access needs a port that can fail (R152). -/
theorem memPortFaults_of_portFails {s : State} {d : PortDraws} {first n : Nat}
    (h : s.portFails d first n = true) : s.params.memPortFaults = true :=
  ((portFails_iff s d first n).mp h).1

/-- A command ends with the code of its checks, or, where they pass and it reaches `M` through a
port that can fail, with `IO_ERROR` (R150, R152). -/
theorem exec_err_cases {i : Instr} {s t : State} (h : exec i s = .next t) :
    t.err = s.check i ∨
      (s.check i = .ok ∧ t.err = .ioError ∧ s.params.memPortFaults = true ∧ ¬ NoAccess i) := by
  cases i <;> cases h
  case rdbits w =>
    rcases rdbits_cases (Config.portDraws s.draws) w s with
      ⟨hr, e⟩ | ⟨hr, hp, e⟩ | ⟨hr, _, e⟩ <;> rw [e]
    · exact .inl (if_neg hr).symm
    · exact .inr ⟨if_pos hr, rfl, memPortFaults_of_portFails hp, by simp [NoAccess]⟩
    · exact .inl (if_pos hr).symm
  case wrbits w =>
    have hok (h0 : w ≠ 0) (hr : s.InRange s.off w)
        (hv : ¬ (s.params.strictValue = true ∧ s.ValueTooWide w)) :
        s.check (.wrbits w) = .ok := by
      rw [State.check, if_neg h0, if_pos hr, if_neg hv]
    rcases wrbits_cases (Config.portDraws s.draws) w s with
      ⟨h0, e⟩ | ⟨h0, hr, e⟩ | ⟨h0, hr, hv, e⟩ | ⟨h0, hr, hv, hp, e⟩ | ⟨h0, hr, hv, _, hp, e⟩ |
      ⟨h0, hr, hv, _, _, e⟩ <;> rw [e]
    · exact .inl (if_pos h0).symm
    · exact .inl (by rw [State.check, if_neg h0, if_neg hr]; rfl)
    · exact .inl (by rw [State.check, if_neg h0, if_pos hr, if_pos hv]; rfl)
    · exact .inr ⟨hok h0 hr hv, rfl, memPortFaults_of_portFails hp, by simp [NoAccess, h0]⟩
    · exact .inr ⟨hok h0 hr hv, rfl, memPortFaults_of_portFails hp, by simp [NoAccess, h0]⟩
    · exact .inl (hok h0 hr hv).symm
  case rdu32 =>
    rcases rdu32_cases (Config.portDraws s.draws) s with
      ⟨hr, e⟩ | ⟨hr, hp, e⟩ | ⟨hr, _, e⟩ <;> rw [e]
    · exact .inl (if_neg hr).symm
    · exact .inr ⟨if_pos hr, rfl, memPortFaults_of_portFails hp, by simp [NoAccess]⟩
    · exact .inl (if_pos hr).symm
  case crccomp =>
    rcases crccomp_cases (Config.portDraws s.draws) s with
      ⟨hs, e⟩ | ⟨hs, hp, e⟩ | ⟨hs, _, e⟩ <;> rw [e]
    · exact .inl (if_neg hs).symm
    · exact .inr ⟨if_pos hs, rfl, memPortFaults_of_portFails hp, by simp [NoAccess]⟩
    · exact .inl (if_pos hs).symm
  case crcstore =>
    rcases crcstore_cases (Config.portDraws s.draws) s with
      ⟨hs, e⟩ | ⟨hs, hp, e⟩ | ⟨hs, _, e⟩ <;> rw [e]
    · exact .inl (if_neg hs).symm
    · exact .inr ⟨if_pos hs, rfl, memPortFaults_of_portFails hp, by simp [NoAccess]⟩
    · exact .inl (if_pos hs).symm
  case crcinit | crcbyte | crcfinal | tblrd => exact .inl rfl

/-- A code that is neither `OK` nor `IO_ERROR` comes from the checks alone. -/
theorem exec_err_eq_iff {i : Instr} {s t : State} {c : Status} (h : exec i s = .next t)
    (hok : c ≠ .ok) (hio : c ≠ .ioError) : t.err = c ↔ s.check i = c := by
  rcases exec_err_cases h with herr | ⟨hcheck, herr, _⟩
  · rw [herr]
  · rw [herr, hcheck]
    exact ⟨fun hc => absurd hc.symm hio, fun hc => absurd hc.symm hok⟩

theorem check_eq_outOfRange_iff (i : Instr) (s : State) :
    s.check i = .outOfRange ↔
      (∃ w, i = .rdbits w ∧ 8 * s.len.toNat < s.offset.toNat + w) ∨
      (∃ w, i = .wrbits w ∧ 1 ≤ w ∧ 8 * s.len.toNat < s.offset.toNat + w) ∨
      (i = .rdu32 ∧ s.len.toNat < s.offset.toNat + 4) := by
  cases i <;> grind [State.check, State.streamBits, State.off]

theorem check_eq_tooSmall_iff (i : Instr) (s : State) :
    s.check i = .tooSmall ↔ (i = .crccomp ∨ i = .crcstore) ∧ s.len.toNat < 4 := by
  cases i <;> grind [State.check]

theorem check_eq_valueRange_iff (i : Instr) (s : State) :
    s.check i = .valueRange ↔ ∃ w, i = .wrbits w ∧ 1 ≤ w ∧
      s.offset.toNat + w ≤ 8 * s.len.toNat ∧ s.params.strictValue = true ∧ w < 64 ∧
      2 ^ w ≤ s.data.toNat := by
  cases i <;> grind [State.check, State.streamBits, State.off]

/-- No check of a command answers `ILLEGAL`: that is the code of a word that is no command (R78). -/
theorem check_ne_illegal (i : Instr) (s : State) : s.check i ≠ .illegal := by
  cases i <;> grind [State.check]

/-- The check makes no access of `M`, so it does not answer `IO_ERROR`. -/
theorem check_ne_ioError (i : Instr) (s : State) : s.check i ≠ .ioError := by
  cases i <;> grind [State.check]

/-- `IO_ERROR` needs a port that can fail and a command that reaches it (R152). -/
theorem exec_err_ne_ioError {i : Instr} {s t : State} (h : exec i s = .next t)
    (hi : s.params.memPortFaults = false ∨ NoAccess i) : t.err ≠ .ioError := by
  rcases exec_err_cases h with herr | ⟨_, _, hport, haccess⟩
  · rw [herr]; exact check_ne_ioError i s
  · rcases hi with hport' | hnone
    · rw [hport] at hport'; cases hport'
    · exact absurd hnone haccess

/-- Settles O48: a code other than `OK` and `IO_ERROR` is that of the command's checks. -/
theorem statusCodesAndTheirCauses : Obligations.StatusCodesAndTheirCauses := by
  refine ⟨?_, ?_, rfl, rfl, rfl, rfl, rfl, rfl⟩
  · intro i s _
    obtain ⟨t, h⟩ := exec_answers_next i s
    obtain ⟨hbusy, hdone, _⟩ := exec_completes h
    refine ⟨t, h, hbusy, hdone, ?_, ?_, ?_, exec_err_ne_ioError h, ?_⟩
    · rw [exec_err_eq_iff (c := .outOfRange) h nofun nofun, check_eq_outOfRange_iff]
    · rw [exec_err_eq_iff (c := .tooSmall) h nofun nofun, check_eq_tooSmall_iff]
    · rw [exec_err_eq_iff (c := .valueRange) h nofun nofun, check_eq_valueRange_iff]
    · rw [Ne, exec_err_eq_iff (c := .illegal) h nofun nofun]; exact check_ne_illegal i s
  · intro s e rest hb hd hi
    obtain ⟨t, hstep, hbusy, hdone, herr⟩ := step_block_of_illegal hb hd hi
    exact ⟨t, hstep, hbusy, hdone, herr⟩

/-! ### Which bytes a command depends on -/

/-- The bytes of the stream are the same in `m` as in the memory of `s` (R21). -/
def SameStream (s : State) (m : Memory) : Prop := ∀ a, a < s.len.toNat → m.read a = s.mem.read a

/-- A run from `s` to `t` and one from `s` with the memory `m` to `u` leave the same registers and
make the same store, inside the stream. -/
def SameEffect (s : State) (m : Memory) (t u : State) : Prop :=
  ∃ land a bytes, a + bytes.length ≤ s.len.toNat ∧ t.mem = s.mem.storeSome land a 0 bytes ∧
    u = t.withMem (m.storeSome land a 0 bytes)

/-- The store of no byte is the effect of a command that keeps `M`. -/
theorem sameEffect_of_mem {s t u : State} {m : Memory} (ht : t.mem = s.mem)
    (hu : u = t.withMem m) : SameEffect s m t u :=
  ⟨allLand, 0, [], Nat.zero_le _, ht, hu⟩

@[simp] theorem withMem_off (s : State) (m : Memory) : (s.withMem m).off = s.off := rfl

/-- A span inside the stream reads the same. -/
theorem readSpan_of_sameStream {s : State} {m : Memory} (h : SameStream s m) {a n : Nat}
    (hfit : a + n ≤ s.len.toNat) : m.readSpan a n = s.mem.readSpan a n :=
  readSpan_congr fun b _ hb => h b (by omega)

theorem span_of_sameStream {s : State} {m : Memory} (h : SameStream s m) {off w : Nat}
    (hr : s.InRange off w) : (s.withMem m).span off w = s.span off w :=
  readSpan_of_sameStream h (span_in_stream hr)

theorem field_of_sameStream {s : State} {m : Memory} (h : SameStream s m) {off w : Nat}
    (hr : s.InRange off w) : (s.withMem m).field off w = s.field off w := by
  rw [State.field, span_of_sameStream h hr, State.field]

theorem merged_of_sameStream {s : State} {m : Memory} (h : SameStream s m) {off w : Nat}
    (hr : s.InRange off w) : (s.withMem m).merged off w = s.merged off w := by
  rw [State.merged, span_of_sameStream h hr, withMem_data, State.merged]

theorem streamCrc_of_sameStream {s : State} {m : Memory} (h : SameStream s m) :
    (s.withMem m).streamCrc = s.streamCrc := by
  have hread : m.readSpan 0 s.slot = s.mem.readSpan 0 s.slot :=
    readSpan_of_sameStream h (by unfold State.slot; omega)
  exact congrArg (crcFoldAll crcOnes) hread

/-- The two runs branch alike. -/
theorem sameEffect_ite {s t t' u u' : State} {m : Memory} {p q : Prop} [Decidable p] [Decidable q]
    (hpq : p ↔ q) (hpos : p → SameEffect s m t u) (hneg : ¬ p → SameEffect s m t' u') :
    SameEffect s m (if p then t else t') (if q then u else u') := by
  by_cases hp : p
  · rw [if_pos hp, if_pos (hpq.mp hp)]; exact hpos hp
  · rw [if_neg hp, if_neg (mt hpq.mpr hp)]; exact hneg hp

/-- A completion alone has the same effect. -/
theorem complete_sameEffect (s : State) (m : Memory) (c : Status) :
    SameEffect s m (s.complete c) ((s.withMem m).complete c) :=
  sameEffect_of_mem rfl rfl

/-- A store of the same bytes inside the stream has the same effect. -/
theorem storing_sameEffect {s : State} (m : Memory) (d : PortDraws) (first : Nat) {a : Nat}
    {bytes : List Byte} (hfit : a + bytes.length ≤ s.len.toNat) :
    SameEffect s m (s.storing d first a bytes) ((s.withMem m).storing d first a bytes) :=
  sameEffect_ite Iff.rfl (fun _ => ⟨d.landed, a, bytes, hfit, rfl, rfl⟩)
    (fun _ => ⟨allLand, a, bytes, hfit, rfl, rfl⟩)

theorem rdbits_sameEffect {s : State} {m : Memory} (h : SameStream s m) (d : PortDraws) (w : Nat) :
    SameEffect s m (rdbits d w s) (rdbits d w (s.withMem m)) := by
  refine sameEffect_ite Iff.rfl (fun hr => ?_) (fun _ => complete_sameEffect s m _)
  refine sameEffect_ite Iff.rfl (fun _ => complete_sameEffect s m _) (fun _ => ?_)
  rw [withMem_off, field_of_sameStream h hr]
  exact sameEffect_of_mem rfl rfl

theorem wrbits_sameEffect {s : State} {m : Memory} (h : SameStream s m) (d : PortDraws) (w : Nat) :
    SameEffect s m (wrbits d w s) (wrbits d w (s.withMem m)) := by
  refine sameEffect_ite Iff.rfl (fun _ => complete_sameEffect s m _) (fun _ => ?_)
  refine sameEffect_ite Iff.rfl (fun hr => ?_) (fun _ => complete_sameEffect s m _)
  refine sameEffect_ite Iff.rfl (fun _ => complete_sameEffect s m _) (fun _ => ?_)
  refine sameEffect_ite Iff.rfl (fun _ => complete_sameEffect s m _) (fun _ => ?_)
  rw [withMem_off, merged_of_sameStream h hr]
  exact storing_sameEffect m d _ (by rw [merged_length]; exact span_in_stream hr)

theorem rdu32_sameEffect {s : State} {m : Memory} (h : SameStream s m) (d : PortDraws) :
    SameEffect s m (rdu32 d s) (rdu32 d (s.withMem m)) := by
  refine sameEffect_ite Iff.rfl (fun hr => ?_) (fun _ => complete_sameEffect s m _)
  refine sameEffect_ite Iff.rfl (fun _ => complete_sameEffect s m _) (fun _ => ?_)
  have hread (k : Nat) (hk : k < 4) : m.read (s.off + k) = s.mem.read (s.off + k) :=
    h _ (by unfold State.InRange State.streamBits at hr; omega)
  rw [withMem_off, withMem_mem, show m.read s.off = s.mem.read s.off from hread 0 (by omega),
    hread 1 (by omega), hread 2 (by omega), hread 3 (by omega)]
  exact sameEffect_of_mem rfl rfl

theorem crccomp_sameEffect {s : State} {m : Memory} (h : SameStream s m) (d : PortDraws) :
    SameEffect s m (crccomp d s) (crccomp d (s.withMem m)) := by
  refine sameEffect_ite Iff.rfl (fun _ => ?_) (fun _ => complete_sameEffect s m _)
  refine sameEffect_ite Iff.rfl (fun _ => sameEffect_of_mem rfl rfl) (fun _ => ?_)
  rw [streamCrc_of_sameStream h]
  exact sameEffect_of_mem rfl rfl

theorem crcstore_sameEffect (s : State) (m : Memory) (d : PortDraws) :
    SameEffect s m (crcstore d s) (crcstore d (s.withMem m)) := by
  refine sameEffect_ite Iff.rfl (fun hs => ?_) (fun _ => complete_sameEffect s m _)
  have hfit : s.slot + (bytesOfWord s.dataWord).length ≤ s.len.toNat := by
    simp only [bytesOfWord_length, State.slot, State.HasSlot, Config.slotBytes] at *; omega
  exact storing_sameEffect m d 0 hfit

/-- A command depends on the bytes of the stream only: from two memories that agree there it has the
same effect (R21). -/
theorem exec_sameEffect (i : Instr) {s : State} {m : Memory} (h : SameStream s m) :
    ∃ t u, exec i s = .next t ∧ exec i (s.withMem m) = .next u ∧ SameEffect s m t u := by
  cases i with
  | rdbits w => exact ⟨_, _, rfl, rfl, rdbits_sameEffect h _ w⟩
  | wrbits w => exact ⟨_, _, rfl, rfl, wrbits_sameEffect h _ w⟩
  | rdu32 => exact ⟨_, _, rfl, rfl, rdu32_sameEffect h _⟩
  | crccomp => exact ⟨_, _, rfl, rfl, crccomp_sameEffect h _⟩
  | crcstore => exact ⟨_, _, rfl, rfl, crcstore_sameEffect s m _⟩
  | crcinit | crcbyte | crcfinal | tblrd => exact ⟨_, _, rfl, rfl, sameEffect_of_mem rfl rfl⟩

/-- Settles O53: the two runs make the same store, which lies below `LEN`. -/
theorem bytesAboveLenAreUntouched : Obligations.BytesAboveLenAreUntouched := by
  intro i s m _ hm
  obtain ⟨t, u, ht, hu, land, a, bytes, hfit, hmem, rfl⟩ := exec_sameEffect i hm
  refine ⟨t, _, ht, hu, rfl, rfl, rfl, fun b hb => ?_, fun b hb => ⟨?_, ?_⟩⟩
  · rw [withMem_mem, hmem, read_storeSome, read_storeSome, hm b hb]
  · rw [hmem]; exact read_storeSome_outside land s.mem a bytes b (.inr (by omega))
  · exact read_storeSome_outside land m a bytes b (.inr (by omega))

/-! ### Register accesses -/

theorem step_write {s : State} {addr n : Nat} {v : Word} {r : Reg} {rest : List Input}
    (hi : s.inputs = .write addr n v :: rest) (hr : busReg s.params.regBase addr n = .ok r) :
    step s = .next ((s.withInputs rest).writeReg r v) := by
  rw [step_input hi, inputTurn, hostWrite, withInputs_params, hr]

theorem step_read {s : State} {addr n : Nat} {r : Reg} {rest : List Input}
    (hi : s.inputs = .read addr n :: rest) (hr : busReg s.params.regBase addr n = .ok r) :
    step s = .next ((s.withInputs rest).readReg (Config.busyRead s.draws) r) := by
  rw [step_input hi, inputTurn, hostRead, withInputs_params, hr, withInputs_draws]

theorem writeReg_of_busy {s : State} (hb : s.busy = true) (r : Reg) (v : Word) :
    s.writeReg r v = s :=
  if_pos hb

theorem writeReg_of_idle {s : State} (hb : s.busy = false) (r : Reg) (v : Word) :
    s.writeReg r v = s.writeIdle r v := by
  rw [State.writeReg, hb, if_neg Bool.false_ne_true]

/-- What a read returns where the register is not in flight (R35). -/
theorem readReg_of_settled {s : State} {r : Reg} (h : s.busy = false ∨ r.inFlight = false)
    (v : Word) : s.readReg v r = s.withBusData (s.regValue r) := by
  have hsettled : (s.busy && r.inFlight) = false := by
    rcases h with h | h <;> simp [h]
  rw [State.readReg, hsettled, if_neg Bool.false_ne_true]

/-- What a read returns where the register is in flight (R35, U4). -/
theorem readReg_of_inFlight {s : State} {r : Reg} (hb : s.busy = true) (hr : r.inFlight = true)
    (v : Word) : s.readReg v r = (s.withBusData v).nextDraw := by
  rw [State.readReg, hb, hr, Bool.and_self, if_pos rfl]

/-- The host's write of the register at offset `o` of the window while the block is idle. -/
theorem step_write_idle {s : State} {v : Word} {rest : List Input} (hb : s.busy = false) (o : Nat)
    (ho : o < 256) (h4 : o % 4 = 0) (hi : s.inputs = .write (s.params.regBase + o) 4 v :: rest) :
    step s = .next ((s.withInputs rest).writeIdle (regAt o) v) := by
  rw [step_write hi (busReg_of_offset _ ho h4), writeReg_of_idle (s := s.withInputs rest) hb]

/-- The host's read of the register at offset `o` of the window where it is not in flight. -/
theorem step_read_settled {s : State} {rest : List Input} {o : Nat}
    (ho : o < 256) (h4 : o % 4 = 0) (hi : s.inputs = .read (s.params.regBase + o) 4 :: rest)
    (h : s.busy = false ∨ (regAt o).inFlight = false) :
    step s = .next ((s.withInputs rest).withBusData ((s.withInputs rest).regValue (regAt o))) := by
  rw [step_read hi (busReg_of_offset _ ho h4), readReg_of_settled (s := s.withInputs rest) h]

/-- Every offset from 0x24 up is reserved (R36). -/
theorem regAt_reserved {o : Nat} (h : 0x24 ≤ o) : regAt o = .reserved := by
  obtain ⟨k, rfl⟩ := Nat.exists_eq_add_of_le' h
  rfl

/-- Settles O13: a write at offset 0 is an issue. -/
theorem issueLatchesTheWord : Obligations.IssueLatchesTheWord := by
  intro s w rest hb hi
  exact ⟨_, step_write_idle hb 0x00 (by decide) (by decide) hi,
    rfl, rfl, rfl, rfl, rfl, rfl, rfl, rfl, rfl, rfl, rfl, rfl, rfl, rfl⟩

/-- Settles O14: an access of the window while busy, whichever register it selects. -/
theorem busyWritesAreIgnored : Obligations.BusyWritesAreIgnored := by
  intro s addr v rest hb hlow hhigh halign hi
  rw [step_write hi (busReg_of_window hlow hhigh halign),
    writeReg_of_busy (s := s.withInputs rest) hb]

/-- A write of `LEN` stores the smaller of the value and `MEM_BYTES` (R25). -/
theorem toNat_clampedLen (v : Word) (n : Nat) :
    (BitVec.ofNat 32 (min v.toNat n)).toNat = min v.toNat n := by
  have hv := v.isLt
  rw [BitVec.toNat_ofNat, Nat.mod_eq_of_lt (by omega)]

/-- A register write keeps `LEN <= MEM_BYTES` (R25). -/
theorem writeReg_keeps_lenFits {s : State} (h : s.len.toNat ≤ s.params.memBytes) (r : Reg)
    (v : Word) : (s.writeReg r v).len.toNat ≤ (s.writeReg r v).params.memBytes := by
  cases hb : s.busy
  · rw [writeReg_of_idle hb]
    cases r with
    | len => exact clampedLen_le v s.params.memBytes
    | cmd | status | offset | dataLo | dataHi | resultLo | resultHi | crc | reserved => exact h
  · rw [writeReg_of_busy hb]; exact h

/-- A register read changes no register and no byte (R35). -/
theorem readReg_keeps (s : State) (v : Word) (r : Reg) :
    ∃ x n, s.readReg v r = { s with busData := x, draws := n } := by
  unfold State.readReg
  split
  · exact ⟨v, s.draws + 1, rfl⟩
  · exact ⟨s.regValue r, s.draws, rfl⟩

/-- Every step keeps `LEN <= MEM_BYTES`: only a host write and a reset change `LEN` (R25). -/
theorem step_keeps_lenFits {s t : State} (h : s.len.toNat ≤ s.params.memBytes)
    (ht : step s = .next t) : t.len.toNat ≤ t.params.memBytes := by
  rcases step_cases ht with ⟨_, hblock⟩ | ⟨rest, hcases⟩
  · obtain ⟨hlen, hparams⟩ := blockTurn_keeps_len hblock
    rw [hlen, hparams]; exact h
  rcases hcases with ⟨_, hblock⟩ | ⟨_, _, v, r, _, _, rfl⟩ | ⟨_, _, r, _, _, rfl⟩ |
    ⟨a, b, _, _, _, rfl⟩ | ⟨_, _, _, _, rfl⟩ | ⟨_, rfl⟩
  · obtain ⟨hlen, hparams⟩ := blockTurn_keeps_len hblock
    rw [hlen, hparams]; exact h
  · exact writeReg_keeps_lenFits (s := s.withInputs rest) h r v
  · obtain ⟨x, n, hread⟩ := readReg_keeps (s.withInputs rest) (Config.busyRead s.draws) r
    rw [hread]; exact h
  · exact h
  · exact h
  · exact Nat.zero_le _

/-- Settles O18: the clamp as it is written, no command, every step. -/
theorem lenIsClampedAndKept : Obligations.LenIsClampedAndKept := by
  refine ⟨?_, fun i s t h => (exec_keepsOperands h).len, fun s t => step_keeps_lenFits⟩
  intro s v rest hb hi
  exact ⟨_, step_write_idle hb 0x0C (by decide) (by decide) hi, toNat_clampedLen v _,
    fun _ => rfl, rfl, rfl, rfl, rfl, rfl⟩

/-- Settles O19: by the halves of a write of one half. -/
theorem dataHalvesAreWrittenApart : Obligations.DataHalvesAreWrittenApart := by
  refine ⟨?_, ?_, fun i s t h => (exec_keepsOperands h).data⟩
  · intro s v rest hb hi
    obtain ⟨hlow, hhigh⟩ := halves_setLowHalf s.data v
    exact ⟨_, step_write_idle hb 0x10 (by decide) (by decide) hi, hlow, hhigh, fun _ => rfl,
      rfl, rfl, rfl, rfl, rfl⟩
  · intro s v rest hb hi
    obtain ⟨hhigh, hlow⟩ := halves_setHighHalf s.data v
    exact ⟨_, step_write_idle hb 0x14 (by decide) (by decide) hi, hhigh, hlow, fun _ => rfl,
      rfl, rfl, rfl, rfl, rfl⟩

/-- Settles O20: the write of each offset, the reserved ones together. -/
theorem plainAndReadOnlyRegisterWrites : Obligations.PlainAndReadOnlyRegisterWrites := by
  refine ⟨?_, ?_, ?_⟩
  · intro s v rest hb hi
    exact step_write_idle hb 0x08 (by decide) (by decide) hi
  · intro s v rest hb hi
    exact step_write_idle hb 0x20 (by decide) (by decide) hi
  · intro s o v rest hb h4 ho hreg hi
    rw [step_write_idle hb o ho h4 hi]
    rcases hreg with rfl | rfl | rfl | hres
    · rfl
    · rfl
    · rfl
    · rw [regAt_reserved hres]; rfl

/-- The bits of `STATUS` (R33). -/
theorem getLsbD_status (s : State) (j : Nat) :
    s.status.getLsbD j =
      if j = 0 then s.busy else if j = 1 then s.done
      else if j < 4 then false else s.err.code.getLsbD (j - 4) := by
  rcases Nat.lt_or_ge j 8 with hj | hj
  · simp only [State.status, BitVec.getLsbD_or, BitVec.getLsbD_shiftLeft, BitVec.getLsbD_setWidth,
      BitVec.getLsbD_ofBool]
    interval_cases j <;> simp
  · have hcode : s.err.code.getLsbD (j - 4) = false := BitVec.getLsbD_of_ge _ _ (by omega)
    have h0 : j ≠ 0 := by omega
    have h1 : j ≠ 1 := by omega
    have h1' : j - 1 ≠ 0 := by omega
    simp [State.status, hcode, h0, h1, h1']

/-- Settles O21: `STATUS` is never in flight, and its bits are its fields. -/
theorem statusReadsItsFields : Obligations.StatusReadsItsFields := by
  intro s rest hi
  refine ⟨_, step_read_settled (o := 0x04) (by decide) (by decide) hi (.inr rfl), rfl,
    getLsbD_status s 0, getLsbD_status s 1, ?_, ?_⟩
  · refine BitVec.eq_of_getLsbD_eq fun j hj => ?_
    have hbit : s.status.getLsbD (4 + j) = s.err.code.getLsbD j := by
      rw [getLsbD_status, if_neg (by omega), if_neg (by omega), if_neg (by omega),
        Nat.add_sub_cancel_left]
    rw [BitVec.getLsbD_extractLsb', decide_eq_true hj, Bool.true_and]
    exact hbit
  · intro j hj
    refine (getLsbD_status s j).trans ?_
    rw [if_neg (by omega), if_neg (by omega)]
    split
    · rfl
    · exact BitVec.getLsbD_of_ge _ _ (by omega)

/-- Settles O22: what each register holds, the reserved ones together. -/
theorem idleReadsReturnTheRegisters : Obligations.IdleReadsReturnTheRegisters := by
  intro s o rest hb h4 ho hi
  refine ⟨_, step_read_settled ho h4 hi (.inl hb), rfl, ?_, ?_, ?_, ?_, ?_, ?_, ?_, ?_, ?_⟩
  case refine_9 => intro hres; rw [regAt_reserved hres]; rfl
  all_goals rintro rfl; rfl

/-- Settles O23: the registers not in flight as `readReg_of_settled` says, the others as drawn. -/
theorem busyReads : Obligations.BusyReads := by
  refine ⟨?_, ?_, ?_⟩
  · intro s o rest _ h4 ho hi
    have hsettled (h : (regAt o).inFlight = false) :
        ((s.withInputs rest).readReg (Config.busyRead s.draws) (regAt o)).busData =
          (s.withInputs rest).regValue (regAt o) := by
      rw [readReg_of_settled (.inr h), withBusData_busData]
    refine ⟨_, step_read hi (busReg_of_offset _ ho h4), rfl, ?_, ?_, ?_, ?_, ?_, ?_, ?_⟩
    case refine_2 =>
      intro hres
      rw [hsettled (by rw [regAt_reserved hres]; rfl), regAt_reserved hres]; rfl
    all_goals rintro rfl; exact hsettled rfl
  · rintro s v r hb (rfl | rfl | rfl) <;> rw [readReg_of_inFlight hb rfl] <;> rfl
  · intro s v r
    obtain ⟨x, n, hread⟩ := readReg_keeps s v r
    rw [hread]
    exact ⟨rfl, rfl, rfl, rfl, rfl, rfl, rfl, rfl⟩

/-! ### Accesses of `M` -/

theorem hostPoke_of_idle {s : State} {a : Nat} (b : Byte) (hb : s.busy = false)
    (ha : a < s.params.memBytes) : hostPoke a b s = .next (s.withMem (s.mem.store a b)) := by
  rw [hostPoke, hb, if_neg Bool.false_ne_true, if_pos ha]

theorem hostPeek_of_idle {s : State} {a : Nat} (hb : s.busy = false)
    (ha : a < s.params.memBytes) :
    hostPeek a s = .next (s.withBusData ((s.mem.read a).setWidth 32)) := by
  rw [hostPeek, hb, if_neg Bool.false_ne_true, if_pos ha]

/-- A write of `M` while busy, or of a byte that does not exist, stops the machine (R21, R190). -/
theorem hostPoke_of_forbidden {s : State} {a : Nat} (b : Byte)
    (h : s.busy = true ∨ s.params.memBytes ≤ a) (t : State) : hostPoke a b s ≠ .next t := by
  unfold hostPoke
  split
  · nofun
  · rename_i hb
    rw [if_neg (Nat.not_lt.mpr (h.resolve_left hb))]
    nofun

/-- A read of `M` while busy, or of a byte that does not exist, stops the machine (R21, R190). -/
theorem hostPeek_of_forbidden {s : State} {a : Nat}
    (h : s.busy = true ∨ s.params.memBytes ≤ a) (t : State) : hostPeek a s ≠ .next t := by
  unfold hostPeek
  split
  · nofun
  · rename_i hb
    rw [if_neg (Nat.not_lt.mpr (h.resolve_left hb))]
    nofun

/-- Settles O24: read after write of one byte, the read, and the two refusals. -/
theorem hostReachesMemoryOnlyWhileIdle : Obligations.HostReachesMemoryOnlyWhileIdle := by
  refine ⟨?_, ?_, ?_⟩
  · intro s a b rest hb ha hi
    have hpoke := hostPoke_of_idle (s := s.withInputs rest) b hb ha
    refine ⟨_, (step_input hi).trans hpoke, ?_, ?_, rfl⟩
    · rw [withMem_mem, read_store, if_pos rfl]
    · intro c hc
      rw [withMem_mem, read_store, if_neg (by omega), withInputs_mem]
  · intro s a rest hb ha hi
    exact (step_input hi).trans (hostPeek_of_idle (s := s.withInputs rest) hb ha)
  · rintro s a b rest hb (hi | hi)
    · exact (step_input hi).trans (if_pos hb)
    · exact (step_input hi).trans (if_pos hb)

/-! ### Where the step stops -/

/-- A register access outside the spec selects no register (R30, R60). -/
theorem busReg_of_forbidden {base addr n : Nat}
    (h : ¬ (base ≤ addr ∧ addr < base + 256 ∧ n = 4 ∧ (addr - base) % 4 = 0)) :
    ∃ e, busReg base addr n = .error e := by
  unfold busReg
  split
  · rename_i hwindow
    obtain ⟨hlow, hhigh⟩ := hwindow
    rw [if_neg (fun halign => h ⟨hlow, hhigh, halign⟩)]
    exact ⟨_, rfl⟩
  · exact ⟨_, rfl⟩

/-- An input stops the machine exactly where the spec gives it no effect (R30, R190). -/
theorem inputTurn_stops_iff (x : Input) (s : State) :
    (∀ t, inputTurn x s ≠ .next t) ↔ Forbidden s x := by
  have hnext {o : Host.Outcome State Fault Refusal} {u : State} (h : o = .next u) :
      ¬ ∀ t, o ≠ .next t := fun hs => hs u h
  cases x with
  | write addr n v =>
    by_cases h : Forbidden s (.write addr n v)
    · obtain ⟨e, he⟩ := busReg_of_forbidden h
      rw [inputTurn, hostWrite, he]
      exact iff_of_true nofun h
    · obtain ⟨hlow, hhigh, rfl, halign⟩ := not_not.mp h
      rw [inputTurn, hostWrite, busReg_of_window hlow hhigh halign]
      exact iff_of_false (hnext rfl) h
  | read addr n =>
    by_cases h : Forbidden s (.read addr n)
    · obtain ⟨e, he⟩ := busReg_of_forbidden h
      rw [inputTurn, hostRead, he]
      exact iff_of_true nofun h
    · obtain ⟨hlow, hhigh, rfl, halign⟩ := not_not.mp h
      rw [inputTurn, hostRead, busReg_of_window hlow hhigh halign]
      exact iff_of_false (hnext rfl) h
  | poke a b =>
    by_cases h : Forbidden s (.poke a b)
    · exact iff_of_true (hostPoke_of_forbidden b h) h
    · obtain ⟨hb, ha⟩ := not_or.mp h
      exact iff_of_false
        (hnext (hostPoke_of_idle b (Bool.eq_false_of_not_eq_true hb) (Nat.lt_of_not_le ha))) h
  | peek a =>
    by_cases h : Forbidden s (.peek a)
    · exact iff_of_true (hostPeek_of_forbidden h) h
    · obtain ⟨hb, ha⟩ := not_or.mp h
      exact iff_of_false
        (hnext (hostPeek_of_idle (Bool.eq_false_of_not_eq_true hb) (Nat.lt_of_not_le ha))) h
  | reset => exact iff_of_false (hnext rfl) id
  | block =>
    obtain ⟨t, ht⟩ := blockTurn_answers_next s
    exact iff_of_false (hnext ht) id

/-- Settles O17: the block's turn never stops, so the step stops exactly on a forbidden input. -/
theorem stepStopsOnlyOnForbiddenAccesses : Obligations.StepStopsOnlyOnForbiddenAccesses := by
  intro s
  cases hi : s.inputs with
  | nil =>
    obtain ⟨t, ht⟩ := blockTurn_answers_next s
    rw [step_no_input hi]
    exact ⟨fun h => absurd ht (h t), fun ⟨_, _, hcons, _⟩ => nomatch hcons⟩
  | cons x rest =>
    rw [step_input hi, inputTurn_stops_iff]
    constructor
    · exact fun h => ⟨x, rest, rfl, h⟩
    · rintro ⟨x, rest, ⟨rfl, rfl⟩, h⟩; exact h

/-! ### Runs of the host and the block -/

/-- Settles O15, by induction on the number of polls: a poll leaves the command pending. -/
theorem pendingCommandCompletesAfterAnyPolling :
    Obligations.PendingCommandCompletesAfterAnyPolling := by
  intro n
  induction n with
  | zero =>
    intro s hb hi
    obtain ⟨t, ht, hdone⟩ := blockTurn_completes hb
    exact ⟨t, run_succ 0 ((step_no_input hi).trans ht), hdone⟩
  | succ n ih =>
    intro s hb hi
    have hpoll := step_read_settled (o := 0x04) (by decide) (by decide) hi (.inr rfl)
    obtain ⟨t, ht, hdone⟩ := ih
      ((s.withInputs (List.replicate n (readStatus s.params.regBase))).withBusData s.status) hb rfl
    exact ⟨t, (run_succ (n + 1) hpoll).trans ht, hdone⟩

/-- The step in which an idle block accepts a command (R31). -/
theorem step_issue {s : State} {w : Word} {rest : List Input} (hb : s.busy = false)
    (hi : s.inputs = .write s.params.regBase 4 w :: rest) :
    ∃ t, step s = .next t ∧ t.busy = true ∧ t.pend = w ∧ t.params = s.params ∧ t.inputs = rest :=
  ⟨_, step_write_idle hb 0x00 (by decide) (by decide) hi, rfl, rfl, rfl, rfl⟩

/-- The step in which a pending `CRCINIT` completes (R125). -/
theorem step_crcinit {s : State} {rest : List Input} (hb : s.busy = true)
    (hpend : s.pend = 0x00000004#32) (hi : s.inputs = .block :: rest) :
    ∃ t, step s = .next t ∧ t.busy = false ∧ t.crc = 0xFFFFFFFF#32 ∧ t.params = s.params ∧
      t.inputs = rest := by
  have hdecode : decode s.pend = .ok .crcinit := by rw [hpend]; decide
  exact ⟨_, (step_block hi).trans (blockTurn_of_decode (s := s.withInputs rest) hb hdecode),
    rfl, rfl, rfl, rfl⟩

/-- Settles O16: a write after the completion meets an idle block, one before it a busy one. -/
theorem busyHazardHasBothOutcomes : Obligations.BusyHazardHasBothOutcomes := by
  intro s v rest hb
  constructor
  · intro hi
    obtain ⟨t₁, hissue, hbusy, hpend, hparams₁, hi₁⟩ := step_issue hb hi
    obtain ⟨t₂, hblock, hidle, _, hparams₂, hi₂⟩ := step_crcinit hbusy hpend hi₁
    have hwrite := step_write_idle hidle 0x20 (by decide) (by decide)
      (by rw [hparams₂, hparams₁]; exact hi₂)
    rw [run_succ 2 hissue, run_succ 1 hblock, run_succ 0 hwrite]
    exact ⟨_, rfl, rfl, hidle⟩
  · intro hi
    obtain ⟨t₁, hissue, hbusy, hpend, hparams₁, hi₁⟩ := step_issue hb hi
    have hlost := busyWritesAreIgnored t₁ (t₁.params.regBase + 0x20) v (.block :: rest) hbusy
      (by omega) (by omega) (by omega) (by rw [hparams₁]; exact hi₁)
    obtain ⟨t₃, hblock, hidle, hcrc, _⟩ :=
      step_crcinit (s := t₁.withInputs (.block :: rest)) hbusy hpend rfl
    rw [run_succ 2 hissue, run_succ 1 hlost, run_succ 0 hblock]
    exact ⟨t₃, rfl, hcrc, hidle⟩

end Sys2Proof.Machine
end

