-- ==== Sys2Proof/Proofs/Memory.lean ====
section
/-! PROOFS. The stream as the commands see it: how many bytes a span has, what a field is by the bytes
it covers, and that reads of several widths see the same bytes. -/

namespace Sys2Proof.Machine

/-! ### The bytes of a span -/

/-- A span has `k` bytes or more exactly when the field reaches past the first `k - 1` of them (R57, R100). -/
theorem le_spanBytes_iff (off w k : Nat) : k ≤ spanBytes off w ↔ 8 * k ≤ off % 8 + w + 7 := by
  rw [spanBytes, Nat.le_div_iff_mul_le (by decide), Nat.mul_comm]

/-- Settles O36: the first bit of a field is one of the eight of its first byte, so the count of bits
from the start of that byte is at most `7 + 64`. -/
theorem spanHasAtMostNineBytes : Obligations.SpanHasAtMostNineBytes := by
  intro off w hpos hwide
  have hfirst : off % 8 < 8 := Nat.mod_lt off (by decide)
  have hone : 1 ≤ spanBytes off w := (le_spanBytes_iff off w 1).mpr (by omega)
  have hnine : ¬ 10 ≤ spanBytes off w := fun h => by
    have := (le_spanBytes_iff off w 10).mp h
    omega
  have hiff := le_spanBytes_iff off w 9
  omega

/-! ### A field by its bytes -/

/-- The bits of a field's value, as a number (R101). -/
theorem testBit_field (s : State) {off w : Nat} (hw : w ≤ 64) (j : Nat) :
    (s.field off w).toNat.testBit j = (decide (j < w) && s.mem.streamBit (off + (w - 1 - j))) := by
  rw [BitVec.testBit_toNat]
  by_cases hj : j < 64
  · exact getLsbD_field s off w j hj
  · rw [BitVec.getLsbD_of_ge _ _ (Nat.not_lt.mp hj), decide_eq_false (by omega), Bool.false_and]

theorem toNat_field_lt (s : State) (off : Nat) {w : Nat} (hw : w ≤ 64) :
    (s.field off w).toNat < 2 ^ w :=
  Nat.lt_pow_two_of_testBit _ fun j hj => by
    rw [testBit_field s hw, decide_eq_false (Nat.not_lt.mpr hj), Bool.false_and]

/-- A field is the field of its first bits followed by the field of its last ones (R101). -/
theorem toNat_field_add (s : State) (off v w : Nat) (h : v + w ≤ 64) :
    (s.field off (v + w)).toNat =
      2 ^ w * (s.field off v).toNat + (s.field (off + v) w).toNat := by
  apply Nat.eq_of_testBit_eq
  intro j
  rw [Nat.testBit_two_pow_mul_add _ (toNat_field_lt s _ (by omega)), testBit_field s h,
    testBit_field s (by omega), testBit_field s (by omega)]
  split
  · have hpos : off + (v + w - 1 - j) = off + v + (w - 1 - j) := by omega
    rw [hpos, decide_eq_true (by omega), decide_eq_true ‹_›]
  · have hpos : v + w - 1 - j = v - 1 - (j - w) := by omega
    have hlast : j < v + w ↔ j - w < v := by omega
    rw [hpos, decide_eq_decide.mpr hlast]

/-- A field inside byte `a`, with `r` bits before it and `k` after it, is that run of the byte's
bits, the first the most significant (R10). -/
theorem toNat_field_in_byte (s : State) (a r w k : Nat) (h : r + w + k = 8) :
    (s.field (8 * a + r) w).toNat = (s.mem.read a).toNat / 2 ^ k % 2 ^ w := by
  apply Nat.eq_of_testBit_eq
  intro j
  rw [testBit_field s (by omega), Nat.testBit_mod_two_pow, Nat.testBit_div_two_pow,
    BitVec.testBit_toNat]
  by_cases hj : j < w
  · have hbyte : (8 * a + r + (w - 1 - j)) / 8 = a := by omega
    have hbit : 7 - (8 * a + r + (w - 1 - j)) % 8 = j + k := by omega
    rw [Memory.streamBit, hbyte, hbit]
  · rw [decide_eq_false hj, Bool.false_and, Bool.false_and]

theorem toNat_field_byte (s : State) (a : Nat) :
    (s.field (8 * a) 8).toNat = (s.mem.read a).toNat := by
  have hbyte := toNat_field_in_byte s a 0 8 0 rfl
  rwa [Nat.pow_zero, Nat.div_one, Nat.mod_eq_of_lt (s.mem.read a).isLt] at hbyte

/-- Two bytes of the stream, big-endian (R54). -/
theorem toNat_field_two_bytes (s : State) (a : Nat) :
    (s.field (8 * a) 16).toNat = 256 * (s.mem.read a).toNat + (s.mem.read (a + 1)).toNat := by
  have hcut := toNat_field_add s (8 * a) 8 8 (by decide)
  rwa [← Nat.mul_succ, toNat_field_byte, toNat_field_byte] at hcut

/-- Four bytes of the stream, big-endian: the value of `RDU32` (R54, R108). -/
theorem field_four_bytes (s : State) (a : Nat) :
    s.field (8 * a) 32 = wordOfBytes (s.mem.read a) (s.mem.read (a + 1)) (s.mem.read (a + 2))
      (s.mem.read (a + 3)) := by
  have hcut := toNat_field_add s (8 * a) 16 16 (by decide)
  rw [show 8 * a + 16 = 8 * (a + 2) by omega, toNat_field_two_bytes, toNat_field_two_bytes] at hcut
  apply BitVec.eq_of_toNat_eq
  rw [toNat_wordOfBytes, hcut]
  ring

/-- Eight bits from the middle of a byte: its low half, then the high half of the next (R54). -/
theorem toNat_field_across_bytes (s : State) (a : Nat) :
    (s.field (8 * a + 4) 8).toNat =
      16 * ((s.mem.read a).toNat % 16) + (s.mem.read (a + 1)).toNat / 16 := by
  have hlow : (s.field (8 * a + 4) 4).toNat = (s.mem.read a).toNat % 2 ^ 4 := by
    rw [toNat_field_in_byte s a 4 4 0 rfl, Nat.pow_zero, Nat.div_one]
  have hhigh : (s.field (8 * (a + 1)) 4).toNat = (s.mem.read (a + 1)).toNat / 16 := by
    have hrun := toNat_field_in_byte s (a + 1) 0 4 4 rfl
    have hlt := (s.mem.read (a + 1)).isLt
    rwa [Nat.mod_eq_of_lt (by omega)] at hrun
  have hcut := toNat_field_add s (8 * a + 4) 4 4 (by decide)
  rwa [show 8 * a + 4 + 4 = 8 * (a + 1) by omega, hlow, hhigh] at hcut

/-! ### Reads with a fault-free port -/

/-- `RDBITS` of a field in range with a fault-free port (R101). -/
theorem exec_rdbits_of_inRange {s : State} {w : Nat} (hport : s.params.memPortFaults = false)
    (h : s.InRange s.off w) : exec (.rdbits w) s = .next (s.returning (s.field s.off w)) := by
  rcases rdbits_cases (Config.portDraws s.draws) w s with ⟨hout, _⟩ | ⟨_, hfail, _⟩ | ⟨_, _, hret⟩
  · exact absurd h hout
  · exact absurd hfail (by rw [portFails_of_faultFree hport]; decide)
  · exact congrArg _ hret

/-- The same with `OFFSET` set to the bit number `p` first (R101). -/
theorem exec_rdbits_withOffset {s : State} {w p : Nat} (o : Word) (ho : o.toNat = p)
    (hport : s.params.memPortFaults = false) (h : p + w ≤ 8 * s.len.toNat) :
    exec (.rdbits w) (s.withOffset o) = .next ((s.withOffset o).returning (s.field p w)) := by
  subst ho
  exact exec_rdbits_of_inRange (s := s.withOffset o) hport h

/-- `RDU32` of a word in range with a fault-free port: the 32 bits at its first byte (R108). -/
theorem exec_rdu32_of_inRange {s : State} (hport : s.params.memPortFaults = false)
    (h : s.InRange (8 * s.off) 32) :
    exec .rdu32 s = .next (s.returning (s.field (8 * s.off) 32)) := by
  rcases rdu32_cases (Config.portDraws s.draws) s with ⟨hout, _⟩ | ⟨_, hfail, _⟩ | ⟨_, _, hret⟩
  · exact absurd h hout
  · exact absurd hfail (by rw [portFails_of_faultFree hport]; decide)
  · rw [field_four_bytes]
    exact congrArg _ hret

/-- Settles O33: each read returns a field, and the value of the field by its bytes. -/
theorem mixedWidthViewsAgree : Obligations.MixedWidthViewsAgree := by
  intro s a hport
  refine ⟨?_, ?_, ?_⟩
  · intro o₁ o₂ ho₁ ho₂ hlen
    subst ho₁
    exact ⟨_, _,
      exec_rdu32_of_inRange (s := s.withOffset o₁) hport
        (show 8 * o₁.toNat + 32 ≤ 8 * s.len.toNat by omega),
      exec_rdbits_withOffset o₂ ho₂ hport (by omega), rfl, rfl, rfl⟩
  · intro o ho hlen
    exact ⟨_, exec_rdbits_withOffset o ho hport (by omega), rfl, toNat_field_two_bytes s a⟩
  · intro o ho hlen
    exact ⟨_, exec_rdbits_withOffset o ho hport (by omega), rfl, toNat_field_across_bytes s a⟩

end Sys2Proof.Machine
end

