-- ==== Sys2Proof/Proofs/Encoding.lean ====
section
/-! PROOFS. The decoder and the encoder, through the three fields of R70: a word decodes to a command
exactly when its fields are that command's, and what the block does with a word that does not
decode. -/

namespace Sys2Proof

/-! ### What a word decodes to, by its fields -/

/-- A command without a width decodes only from `WIDTH` 0 (R75). -/
theorem withoutWidth_eq_ok_iff (i j : Instr) (n : Nat) :
    withoutWidth i n = .ok j ↔ n = 0 ∧ i = j := by
  by_cases h : n = 0 <;> simp [withoutWidth, h]

/-- The fields of a word are those of the command `i` (R70, R74). -/
structure HasFieldsOf (w : Word) (i : Instr) : Prop where
  wellFormed : i.wellFormed = true
  rsv : rsvField w = 0
  opc : opcField w = opcode i
  width : widthField w = width i

/-- A word that decodes has the fields of its command (R71 to R73). -/
theorem hasFieldsOf_of_decode {w : Word} {i : Instr} (h : decode w = .ok i) : HasFieldsOf w i := by
  unfold decode at h
  by_cases hrsv : rsvField w = 0
  · rw [if_neg (not_not_intro hrsv)] at h
    split at h
    case h_1 hopc =>
      by_cases hpos : widthField w = 0
      · simp [hpos] at h
      by_cases hle : widthField w ≤ 64
      · simp only [hpos, hle, if_true, if_false, Except.ok.injEq] at h
        subst h
        exact ⟨(wellFormed_rdbits _).mpr ⟨by omega, hle⟩, hrsv, hopc, rfl⟩
      · simp [hpos, hle] at h
    case h_2 hopc =>
      by_cases hle : widthField w ≤ 64
      · simp only [hle, if_true, Except.ok.injEq] at h
        subst h
        exact ⟨(wellFormed_wrbits _).mpr hle, hrsv, hopc, rfl⟩
      · simp [hle] at h
    case h_10 => cases h
    all_goals
      obtain ⟨hwidth, rfl⟩ := (withoutWidth_eq_ok_iff _ _ _).mp h
      exact ⟨rfl, hrsv, ‹opcField w = _›, hwidth⟩
  · simp [hrsv] at h

/-- A word with the fields of a well-formed command decodes to it. -/
theorem decode_of_hasFieldsOf {w : Word} {i : Instr} (h : HasFieldsOf w i) : decode w = .ok i := by
  obtain ⟨hwf, hrsv, hopc, hwidth⟩ := h
  unfold decode
  rw [if_neg (not_not_intro hrsv), hopc, hwidth]
  cases i with
  | rdbits n =>
    obtain ⟨hpos, hle⟩ := (wellFormed_rdbits n).mp hwf
    simp [opcode, width, hle, Nat.one_le_iff_ne_zero.mp hpos]
  | wrbits n => simp [opcode, width, (wellFormed_wrbits n).mp hwf]
  | _ => rfl

/-- The word of a well-formed command has its fields (R70). -/
theorem hasFieldsOf_encode {i : Instr} (h : i.wellFormed = true) : HasFieldsOf (encode i) i :=
  have ⟨hopc, hwidth, hrsv⟩ := Laws.encodedFields_of_wellFormed i h
  ⟨h, hrsv, hopc, hwidth⟩

/-- The fields of a word fix it: it is the encoding of the command whose fields it has. -/
theorem encode_of_hasFieldsOf {w : Word} {i : Instr} (h : HasFieldsOf w i) : encode i = w := by
  rw [word_of_fields h.rsv, h.opc, h.width, encode]

/-! ### The round trip -/

/-- Settles O6: the word of a well-formed command has the fields of that command, and `decode` asks
for no more. -/
theorem decodeOfEncode : Obligations.DecodeOfEncode :=
  fun _ hwf => decode_of_hasFieldsOf (hasFieldsOf_encode hwf)

/-- Settles O7: a word that decodes has the fields of its command, and the fields fix the word. -/
theorem encodeOfDecode : Obligations.EncodeOfDecode := by
  intro w i h
  have hfields := hasFieldsOf_of_decode h
  exact ⟨hfields.wellFormed, encode_of_hasFieldsOf hfields⟩

/-! ### The words of the table -/

/-- A word that is no command's is illegal. -/
theorem exists_decode_eq_error {w : Word} (h : ∀ i, decode w ≠ .ok i) :
    ∃ e, decode w = .error e := by
  cases hd : decode w with
  | ok i => exact absurd hd (h i)
  | error e => exact ⟨e, rfl⟩

/-- Settles O8: the table's words are encodings (O6), and a word that decodes is the encoding of one
of the nine commands (O7), so it is in the table. -/
theorem legalWordsAreExactlyTheTable : Obligations.LegalWordsAreExactlyTheTable := by
  refine ⟨fun n hpos hle => decodeOfEncode (.rdbits n) ((wellFormed_rdbits n).mpr ⟨hpos, hle⟩),
    fun n hle => decodeOfEncode (.wrbits n) ((wellFormed_wrbits n).mpr hle),
    decodeOfEncode .rdu32 rfl, decodeOfEncode .crcinit rfl, decodeOfEncode .crcbyte rfl,
    decodeOfEncode .crcfinal rfl, decodeOfEncode .crccomp rfl, decodeOfEncode .crcstore rfl,
    decodeOfEncode .tblrd rfl, ?_⟩
  intro w hnotRead hnotWrite hnotPlain
  refine exists_decode_eq_error fun i hd => ?_
  obtain ⟨hwf, rfl⟩ := encodeOfDecode w i hd
  cases i with
  | rdbits n =>
    obtain ⟨hpos, hle⟩ := (wellFormed_rdbits n).mp hwf
    exact hnotRead n hpos hle rfl
  | wrbits n => exact hnotWrite n ((wellFormed_wrbits n).mp hwf) rfl
  | _ => exact hnotPlain (by decide)

/-- The word of a well-formed command is the one whose number is `OPC + 16 * WIDTH` (R70). -/
theorem encode_eq_of_toNat {i : Instr} {w : Word} (hwf : i.wellFormed = true)
    (hw : w.toNat = opcode i + 16 * width i) : encode i = w :=
  BitVec.eq_of_toNat_eq ((toNat_encode hwf).trans hw.symm)

/-- The word whose number is `OPC + 16 * WIDTH` of a well-formed command decodes to it. -/
theorem decode_of_toNat {i : Instr} {w : Word} (hwf : i.wellFormed = true)
    (hw : w.toNat = opcode i + 16 * width i) : decode w = .ok i :=
  encode_eq_of_toNat hwf hw ▸ decodeOfEncode i hwf

/-- Settles O9: each word by its number. -/
theorem wordsOfTheProgramsCommands : Obligations.WordsOfTheProgramsCommands := by
  unfold Obligations.WordsOfTheProgramsCommands
  and_intros <;> exact encode_eq_of_toNat rfl rfl

/-- Settles O10: each word by its number. -/
theorem wordsDecodeToTheirCommands : Obligations.WordsDecodeToTheirCommands := by
  unfold Obligations.WordsDecodeToTheirCommands
  and_intros <;> exact decode_of_toNat rfl rfl

end Sys2Proof

namespace Sys2Proof.Machine

/-! ### Illegal words -/

/-- The bits R78 lists are no command's fields, so a word with them does not decode. -/
theorem decode_of_illegalBits {w : Word} (h : IllegalBits w) : ∃ e, decode w = .error e := by
  refine exists_decode_eq_error fun i hd => ?_
  obtain ⟨hwf, hrsv, hopc, hwidth⟩ := hasFieldsOf_of_decode hd
  rw [rsvField_eq] at hrsv
  rw [opcField_eq] at hopc
  rw [widthField_eq] at hwidth
  rw [IllegalBits, hrsv, hopc, hwidth] at h
  cases i with
  | rdbits n =>
    obtain ⟨hpos, hle⟩ := (wellFormed_rdbits n).mp hwf
    simp only [opcode, width] at h
    omega
  | wrbits n =>
    have hle := (wellFormed_wrbits n).mp hwf
    simp only [opcode, width] at h
    omega
  | _ => exact absurd h (by decide)

/-- The block's turn on a pending word with the bits R78 lists changes `STATUS` and nothing else. -/
theorem blockTurn_of_illegalBits {s : State} (hb : s.busy = true) (h : IllegalBits s.pend) :
    ∃ t, blockTurn s = .next t ∧ OnlyStatus s t .illegal := by
  obtain ⟨e, hd⟩ := decode_of_illegalBits h
  exact ⟨_, blockTurn_of_illegal hb hd, onlyStatus_complete s .illegal⟩

/-- Settles O12: each way to the block's turn, then what the turn does with an illegal word. -/
theorem illegalWordsCompleteWithIllegal : Obligations.IllegalWordsCompleteWithIllegal := by
  refine ⟨?_, ?_, ?_⟩
  · intro s hb hbits hi
    rw [step_no_input hi]
    exact blockTurn_of_illegalBits hb hbits
  · intro s rest hb hbits hi
    rw [step_block hi]
    exact blockTurn_of_illegalBits (s := s.withInputs rest) hb hbits
  · intro s w hbits
    rw [step_withFetchWord]
    exact blockTurn_of_illegalBits (s := s.issue w) (issue_busy s w) hbits

end Sys2Proof.Machine
end

