-- ==== Sys2Proof/Proofs/BitAccess.lean ====
section
/-! PROOFS. The bit accessor commands: what a read of `M` returns or reports, what `WRBITS` writes
and leaves alone however it ends, reads after writes, and which partial stores the memory port
admits. -/

namespace Sys2Proof.Machine

/-! ### Reads through the memory port -/

/-- What a command that reads `n` bytes of `M` and returns `v` does once its bounds check has passed
(R101, R102, R108). -/
def State.reading (s : State) (d : PortDraws) (n : Nat) (v : DWord) : State :=
  if s.portFails d 0 n then s.complete .ioError else s.returning v

/-- A read of `M` fails, with no effect but `STATUS`, or returns the value. -/
theorem reading_cases (s : State) (d : PortDraws) (n : Nat) (v : DWord) :
    (s.portFails d 0 n = true ∧ s.reading d n v = s.complete .ioError) ∨
    (s.portFails d 0 n = false ∧ s.reading d n v = s.returning v) := by
  unfold State.reading
  cases s.portFails d 0 n
  · exact .inr ⟨rfl, rfl⟩
  · exact .inl ⟨rfl, rfl⟩

theorem reading_of_port {s : State} (hport : s.params.memPortFaults = false) (d : PortDraws)
    (n : Nat) (v : DWord) : s.reading d n v = s.returning v := by
  rw [State.reading, portFails_of_faultFree hport, if_neg Bool.false_ne_true]

/-- A read fails exactly where the draw fails one of its accesses (R102, R152). -/
theorem reading_err_iff (s : State) (d : PortDraws) (n : Nat) (v : DWord) :
    (s.reading d n v).err = .ioError ↔
      s.params.memPortFaults = true ∧ ∃ k, k < n ∧ d.fails k = true := by
  have hiff := portFails_iff s d 0 n
  simp only [Nat.zero_add] at hiff
  rw [← hiff]
  rcases reading_cases s d n v with ⟨hfail, e⟩ | ⟨hfail, e⟩ <;> simp [hfail, e]

theorem onlyStatus_of_reading_ioError {s : State} {d : PortDraws} {n : Nat} {v : DWord}
    (h : (s.reading d n v).err = .ioError) : OnlyStatus s (s.reading d n v) .ioError := by
  rcases reading_cases s d n v with ⟨_, e⟩ | ⟨_, e⟩
  · exact e ▸ onlyStatus_complete s .ioError
  · rw [e] at h; cases h

/-- With the port that can fail, a read fails or does what it does with the one that cannot. -/
theorem reading_fails_or_as_faultFree (s : State) (d e : PortDraws) (n : Nat) (v : DWord) :
    OnlyStatus s (s.reading d n v) .ioError ∨
      s.faultFree.reading e n v = { s.reading d n v with params := s.faultFree.params } := by
  rcases reading_cases s d n v with ⟨_, hread⟩ | ⟨_, hread⟩ <;> rw [hread]
  · exact .inl (onlyStatus_complete s .ioError)
  · exact .inr (reading_of_port rfl e n v)

/-! ### `RDBITS` and `RDU32` by their bounds -/

theorem rdbits_of_inRange {s : State} {w : Nat} (h : s.InRange s.off w) (d : PortDraws) :
    rdbits d w s = s.reading d (spanBytes s.off w) (s.field s.off w) :=
  if_pos h

theorem rdbits_of_outside {s : State} {w : Nat} (h : ¬ s.InRange s.off w) (d : PortDraws) :
    rdbits d w s = s.complete .outOfRange :=
  if_neg h

/-- `RDBITS` that completes `OK` has returned the field (R101). -/
theorem rdbits_of_ok {s : State} {w : Nat} {d : PortDraws} (h : (rdbits d w s).err = .ok) :
    rdbits d w s = s.returning (s.field s.off w) := by
  rcases rdbits_cases d w s with ⟨_, e⟩ | ⟨_, _, e⟩ | ⟨_, _, e⟩
  · rw [e] at h; cases h
  · rw [e] at h; cases h
  · exact e

/-- The four bytes at byte `OFFSET` lie in the stream (R108). -/
theorem inRange_word_iff (s : State) :
    s.InRange (8 * s.off) 32 ↔ s.offset.toNat + 4 ≤ s.len.toNat := by
  unfold State.InRange State.streamBits State.off
  omega

theorem rdu32_of_inRange {s : State} (h : s.offset.toNat + 4 ≤ s.len.toNat) (d : PortDraws) :
    rdu32 d s = s.reading d 4 (wordOfBytes (s.mem.read s.off) (s.mem.read (s.off + 1))
      (s.mem.read (s.off + 2)) (s.mem.read (s.off + 3))) :=
  if_pos ((inRange_word_iff s).mpr h)

theorem rdu32_of_outside {s : State} (h : s.len.toNat < s.offset.toNat + 4) (d : PortDraws) :
    rdu32 d s = s.complete .outOfRange :=
  if_neg (mt (inRange_word_iff s).mp (by omega))

theorem onlyStatus_of_rdbits_ioError {d : PortDraws} {s : State} {w : Nat}
    (h : (rdbits d w s).err = .ioError) : OnlyStatus s (rdbits d w s) .ioError := by
  by_cases hr : s.InRange s.off w
  · rw [rdbits_of_inRange hr] at h ⊢; exact onlyStatus_of_reading_ioError h
  · rw [rdbits_of_outside hr] at h; cases h

theorem onlyStatus_of_rdu32_ioError {d : PortDraws} {s : State}
    (h : (rdu32 d s).err = .ioError) : OnlyStatus s (rdu32 d s) .ioError := by
  by_cases hr : s.offset.toNat + 4 ≤ s.len.toNat
  · rw [rdu32_of_inRange hr] at h ⊢; exact onlyStatus_of_reading_ioError h
  · rw [rdu32_of_outside (by omega)] at h; cases h

theorem exec_rdbits (w : Nat) (s : State) :
    exec (.rdbits w) s = .next (rdbits (Config.portDraws s.draws) w s) := rfl

theorem exec_rdu32 (s : State) : exec .rdu32 s = .next (rdu32 (Config.portDraws s.draws) s) := rfl

/-- Settles O32: in range both commands are a read of `M`, and out of range neither ends in
`IO_ERROR`. -/
theorem failedReadsKeepResultAndMemory : Obligations.FailedReadsKeepResultAndMemory := by
  refine ⟨?_, ?_, ?_, fun s w => ⟨exec_rdbits w s, exec_rdu32 s⟩⟩
  · intro d s w hr
    rw [rdbits_of_inRange hr]
    exact reading_err_iff s d _ _
  · intro d s hr
    rw [rdu32_of_inRange hr]
    exact reading_err_iff s d _ _
  · intro d s
    exact ⟨fun w h => onlyStatus_of_rdbits_ioError h, onlyStatus_of_rdu32_ioError⟩

/-- Settles O25: in range `RDBITS` is a read of the field, whose bits `getLsbD_field` gives; its
words are those of R74. -/
theorem rdbitsReadsTheField : Obligations.RdbitsReadsTheField := by
  refine ⟨?_, ?_, ?_, ?_, ?_⟩
  · intro s w _ hwide hport hr
    have hexec := exec_rdbits_of_inRange hport hr
    refine ⟨_, hexec, completed_returning _ _, exec_keepsOperands hexec, fun _ => rfl, rfl, ?_, ?_⟩
    · intro i hi
      have hlast : w - 1 - (w - 1 - i) = i := by omega
      rw [returning_result, getLsbD_field _ _ _ _ (by omega), hlast, decide_eq_true (by omega),
        Bool.true_and]
      rfl
    · intro j hj
      rw [returning_result, ← BitVec.testBit_toNat, testBit_field s hwide,
        decide_eq_false (by omega), Bool.false_and]
  · intro s w _ _ hout
    have hoff : ¬ s.InRange s.off w := Nat.not_le.mpr hout
    rw [exec_rdbits, rdbits_of_outside hoff]
    exact ⟨_, rfl, onlyStatus_complete s .outOfRange⟩
  · intro s w _ _ hr
    rw [exec_rdbits, exec_rdbits, rdbits_of_inRange hr, rdbits_of_inRange (s := s.faultFree) hr]
    exact ⟨_, rfl, (reading_fails_or_as_faultFree s _ _ _ _).imp_right (congrArg _)⟩
  · intro w hpos hle
    exact decodeOfEncode (.rdbits w) ((wellFormed_rdbits w).mpr ⟨hpos, hle⟩)
  · intro w hfits hillegal
    apply decode_of_illegalBits
    rw [IllegalBits, toNat_opc_or_width 1 w (by decide) hfits]
    omega

/-! ### The one word of a command without a width -/

/-- An `OPC` of 3 or more names one command (R71). -/
theorem eq_of_opcode_eq {i j : Instr} (hi : 3 ≤ opcode i) (h : opcode j = opcode i) : j = i := by
  cases i <;> cases j <;> simp [opcode] at hi h ⊢

/-- A command without a width has its `OPC` as its one word (R74, R75). -/
theorem oneWord_of_opcode {i : Instr} (hi : 3 ≤ opcode i) : OneWord (opcode i) i := by
  have hwf : i.wellFormed = true := by cases i <;> simp [opcode, Instr.wellFormed] at hi ⊢
  have hword : encode i = BitVec.ofNat 32 (opcode i) := by
    cases i <;> simp [opcode] at hi <;> rfl
  refine ⟨hword ▸ decodeOfEncode i hwf, fun w hopc hne => exists_decode_eq_error fun j hd => ?_⟩
  have hfields := hasFieldsOf_of_decode hd
  have hsame : j = i := eq_of_opcode_eq hi (by rw [← hfields.opc, opcField_eq, hopc])
  subst hsame
  exact hne (by rw [← hword, encode_of_hasFieldsOf hfields])

/-- Settles O31: in range `RDU32` is a read of the four bytes, and out of range a completion. -/
theorem rduReadsFourBytesBigEndian : Obligations.RduReadsFourBytesBigEndian := by
  refine ⟨?_, ?_, ?_, oneWord_of_opcode (i := .rdu32) (by decide)⟩
  · intro s hport hr
    have hexec := exec_rdu32 s
    rw [rdu32_of_inRange hr, reading_of_port hport] at hexec
    exact ⟨_, hexec, completed_returning _ _, exec_keepsOperands hexec, fun _ => rfl, rfl,
      toNat_wordOfBytes _ _ _ _⟩
  · intro s hout
    rw [exec_rdu32, rdu32_of_outside hout]
    exact ⟨_, rfl, onlyStatus_complete s .outOfRange⟩
  · intro s hr
    rw [exec_rdu32, exec_rdu32, rdu32_of_inRange hr, rdu32_of_inRange (s := s.faultFree) hr]
    exact ⟨_, rfl, (reading_fails_or_as_faultFree s _ _ _ _).imp_right (congrArg _)⟩

/-! ### Which bytes of a store land -/

/-- A store that lands nowhere writes nothing. -/
theorem storeSome_of_none_landed (m : Memory) (a k : Nat) (bytes : List Byte) :
    m.storeSome (fun _ => false) a k bytes = m := by
  induction bytes generalizing k with
  | nil => rfl
  | cons b rest ih => exact ih (k + 1)

/-- A store of which some bytes land leaves each byte as the whole store would, where it landed, and
as before elsewhere (U2). -/
theorem read_storeSome_eq_ite (land : Nat → Bool) (m : Memory) (a : Nat) (bytes : List Byte)
    (b : Nat) :
    (m.storeSome land a 0 bytes).read b =
      if land (b - a) then (m.storeSome allLand a 0 bytes).read b else m.read b := by
  rw [read_storeSome, read_storeAll]
  by_cases hland : land (b - a) = true <;> simp [hland]

/-- A partial store of a merged span disturbs no bit outside the field (R106, R107). -/
theorem streamBit_storeSome_merged_outside (land : Nat → Bool) (s : State) {off w p : Nat}
    (hp : p < off ∨ off + w ≤ p) :
    (s.mem.storeSome land (spanFirst off) 0 (s.merged off w)).streamBit p =
      s.mem.streamBit p := by
  have hwhole := streamBit_store_merged s off w p
  rw [if_neg (by omega)] at hwhole
  unfold Memory.streamBit at hwhole ⊢
  rw [read_storeSome_eq_ite]
  split
  · exact hwhole
  · rfl

/-! ### When `WRBITS` reaches `M`, and what it does then -/

/-- `WRBITS w` passes its checks and makes its accesses (R103 to R105). -/
def State.Accepts (s : State) (w : Nat) : Prop := 1 ≤ w ∧ s.InRange s.off w ∧ ¬ s.Rejects w

/-- Which bytes of its span `WRBITS` writes: none where a read fails, those drawn where only a write
does, and otherwise all (R103, R107; log 8). -/
def State.landing (s : State) (d : PortDraws) (n : Nat) : Nat → Bool :=
  if s.portFails d 0 n then fun _ => false else if s.portFails d n n then d.landed else allLand

/-- `M` with the span of `WRBITS w` written back as far as `land` lets it land. -/
def State.writtenBack (s : State) (land : Nat → Bool) (w : Nat) : Memory :=
  s.mem.storeSome land (spanFirst s.off) 0 (s.merged s.off w)

theorem portFails_append (s : State) (d : PortDraws) (first m n : Nat) :
    s.portFails d first (m + n) = (s.portFails d first m || s.portFails d (first + m) n) := by
  simp only [State.portFails, List.range_add, List.any_append, List.any_map, Function.comp_def,
    Bool.and_or_distrib_left, Nat.add_assoc]

theorem landing_of_no_fail {s : State} {d : PortDraws} {n : Nat}
    (h : s.portFails d 0 (2 * n) = false) : s.landing d n = allLand := by
  rw [Nat.two_mul, portFails_append, Nat.zero_add, Bool.or_eq_false_iff] at h
  obtain ⟨hread, hwrite⟩ := h
  rw [State.landing, hread, hwrite]
  rfl

/-- `WRBITS` whose checks pass ends in `IO_ERROR` where one of its reads and writes fails, and in
`OK` otherwise (R103, R107). -/
theorem wrbits_of_accepts {s : State} {w : Nat} (h : s.Accepts w) (d : PortDraws) :
    wrbits d w s = (s.withMem (s.writtenBack (s.landing d (spanBytes s.off w)) w)).complete
      (if s.portFails d 0 (2 * spanBytes s.off w) then .ioError else .ok) := by
  obtain ⟨hpos, hr, hv⟩ := h
  rw [State.landing, Nat.two_mul, portFails_append, Nat.zero_add]
  rcases wrbits_cases d w s with
    ⟨h0, _⟩ | ⟨_, hout, _⟩ | ⟨_, _, hrej, _⟩ | ⟨_, _, _, hread, e⟩ | ⟨_, _, _, hread, hwrite, e⟩ |
    ⟨_, _, _, hread, hwrite, e⟩
  · omega
  · exact absurd hr hout
  · exact absurd hrej hv
  · rw [e, hread, if_pos rfl, State.writtenBack, storeSome_of_none_landed]; rfl
  · rw [e, hread, hwrite]; rfl
  · rw [e, hread, hwrite]; rfl

/-- The checks of a `WRBITS` of some width answer `OK` exactly where they pass. -/
theorem check_wrbits_eq_ok_iff {s : State} {w : Nat} (hpos : 1 ≤ w) :
    s.check (.wrbits w) = .ok ↔ s.Accepts w := by
  rw [State.check, if_neg (Nat.one_le_iff_ne_zero.mp hpos)]
  by_cases hr : s.InRange s.off w
  · by_cases hv : s.Rejects w
    · rw [if_pos hr, if_pos hv]
      exact ⟨nofun, fun ⟨_, _, hnot⟩ => absurd hv hnot⟩
    · rw [if_pos hr, if_neg hv]
      exact ⟨fun _ => ⟨hpos, hr, hv⟩, fun _ => rfl⟩
  · rw [if_neg hr]
    exact ⟨nofun, fun ⟨_, hin, _⟩ => absurd hin hr⟩

/-- `WRBITS` whose checks do not pass, or of width 0, ends with the code of its checks (R153). -/
theorem wrbits_of_not_accepts {s : State} {w : Nat} (h : ¬ s.Accepts w) (d : PortDraws) :
    wrbits d w s = s.complete (s.check (.wrbits w)) := by
  rcases wrbits_cases d w s with
    ⟨h0, e⟩ | ⟨h0, hr, e⟩ | ⟨h0, hr, hv, e⟩ | ⟨h0, hr, hv, _⟩ | ⟨h0, hr, hv, _⟩ | ⟨h0, hr, hv, _⟩
  · rw [e, State.check, if_pos h0]
  · rw [e, State.check, if_neg h0, if_neg hr]
  · rw [e, State.check, if_neg h0, if_pos hr, if_pos hv]
  all_goals exact absurd ⟨Nat.one_le_iff_ne_zero.mpr h0, hr, hv⟩ h

/-- `WRBITS` that a check ends has no effect but `STATUS` (R153). -/
theorem wrbits_of_check {s : State} {w : Nat} {c : Status} (hcheck : s.check (.wrbits w) = c)
    (hc : c ≠ .ok) (d : PortDraws) : wrbits d w s = s.complete c := by
  have hn : ¬ s.Accepts w := fun h => hc (hcheck ▸ (check_wrbits_eq_ok_iff h.1).mpr h)
  rw [wrbits_of_not_accepts hn, hcheck]

/-- `WRBITS` of which no access fails writes its whole span back (R103). -/
theorem wrbits_of_no_fail {s : State} {w : Nat} {d : PortDraws} (h : s.Accepts w)
    (hfail : s.portFails d 0 (2 * spanBytes s.off w) = false) :
    wrbits d w s = (s.withMem (s.writtenBack allLand w)).complete .ok := by
  rw [wrbits_of_accepts h, landing_of_no_fail hfail, hfail, if_neg Bool.false_ne_true]

theorem wrbits_of_port {s : State} {w : Nat} (h : s.Accepts w)
    (hport : s.params.memPortFaults = false) (d : PortDraws) :
    wrbits d w s = (s.withMem (s.writtenBack allLand w)).complete .ok :=
  wrbits_of_no_fail h (portFails_of_faultFree hport d _ _)

/-- `WRBITS` of some width that completes `OK` has written its whole span back (R103). -/
theorem wrbits_of_ok {d : PortDraws} {s : State} {w : Nat} (hpos : 1 ≤ w)
    (hok : (wrbits d w s).err = .ok) :
    wrbits d w s = (s.withMem (s.writtenBack allLand w)).complete .ok := by
  have hacc : s.Accepts w := by
    by_contra hn
    rw [wrbits_of_not_accepts hn] at hok
    exact hn ((check_wrbits_eq_ok_iff hpos).mp hok)
  refine wrbits_of_no_fail hacc (Bool.eq_false_iff.mpr fun hfail => ?_)
  rw [wrbits_of_accepts hacc, hfail] at hok
  cases hok

/-- `WRBITS` that ends in `IO_ERROR` had passed its checks, and wrote some bytes of its span
(R107). -/
theorem wrbits_of_ioError {d : PortDraws} {s : State} {w : Nat}
    (hio : (wrbits d w s).err = .ioError) :
    s.Accepts w ∧ ∃ land, wrbits d w s = (s.withMem (s.writtenBack land w)).complete .ioError := by
  have hacc : s.Accepts w := by
    by_contra hn
    rw [wrbits_of_not_accepts hn] at hio
    exact check_ne_ioError (.wrbits w) s hio
  have heq := wrbits_of_accepts hacc d
  have hcode := congrArg State.err heq
  rw [hio, complete_err] at hcode
  rw [← hcode] at heq
  exact ⟨hacc, _, heq⟩

/-- Where the checks pass, `WRBITS` fails exactly where the draw fails one of its reads and writes
(R107, R152). -/
theorem wrbits_err_iff {s : State} {w : Nat} (h : s.Accepts w) (d : PortDraws) :
    (wrbits d w s).err = .ioError ↔ s.params.memPortFaults = true ∧
      ∃ k, k < 2 * spanBytes s.off w ∧ d.fails k = true := by
  have hiff := portFails_iff s d 0 (2 * spanBytes s.off w)
  simp only [Nat.zero_add] at hiff
  rw [wrbits_of_accepts h, complete_err, ← hiff]
  cases s.portFails d 0 (2 * spanBytes s.off w) <;> simp

theorem exec_wrbits (w : Nat) (s : State) :
    exec (.wrbits w) s = .next (wrbits (Config.portDraws s.draws) w s) := rfl

/-! ### The checks of `WRBITS` -/

/-- Settles O27: width 0 is checked first. -/
theorem wrbitsOfWidthZeroDoesNothing : Obligations.WrbitsOfWidthZeroDoesNothing := by
  intro s
  have hn : ¬ s.Accepts 0 := fun h => Nat.not_succ_le_zero 0 h.1
  rw [exec_wrbits, wrbits_of_not_accepts hn]
  exact ⟨_, rfl, onlyStatus_complete s .ok⟩

/-- Settles O29: the bounds are checked before the value and before any access. -/
theorem wrbitsOutOfRangeHasNoEffect : Obligations.WrbitsOutOfRangeHasNoEffect := by
  intro s w hpos _ hout
  have hcheck := (check_eq_outOfRange_iff (.wrbits w) s).mpr (.inr (.inl ⟨w, rfl, hpos, hout⟩))
  rw [exec_wrbits, wrbits_of_check hcheck nofun]
  exact ⟨_, rfl, onlyStatus_complete s .outOfRange⟩

/-! ### What `WRBITS` writes -/

/-- Settles O26: where `WRBITS` completes `OK` it has written its whole merged span back, whose bits
`streamBit_store_merged` gives. -/
theorem wrbitsWritesTheFieldAndNothingElse : Obligations.WrbitsWritesTheFieldAndNothingElse := by
  refine ⟨?_, ?_⟩
  · intro s w hpos _ hport hr hv
    rw [exec_wrbits, wrbits_of_port ⟨hpos, hr, hv⟩ hport]
    exact ⟨_, rfl, completed_complete _ _⟩
  · intro s t w hpos _ hexec hok
    have hwrites : Stores s t (spanFirst s.off) (spanBytes s.off w) := exec_writes hexec
    refine ⟨exec_keepsOperands hexec, hwrites.result, hwrites.crc, hwrites.outside, fun p => ?_⟩
    cases hexec
    rw [wrbits_of_ok hpos hok]
    exact streamBit_store_merged s s.off w p

/-- The store a `WRBITS` with a fault-free memory makes. -/
theorem mem_of_exec_wrbits_faultFree {s u : State} {w : Nat} (h : s.Accepts w)
    (hexec : exec (.wrbits w) s.faultFree = .next u) : u.mem = s.writtenBack allLand w := by
  cases hexec
  rw [wrbits_of_port (s := s.faultFree) h rfl]
  rfl

theorem keepsOperands_withMem_complete (s : State) (m : Memory) (c : Status) :
    KeepsOperands s ((s.withMem m).complete c) :=
  ⟨rfl, rfl, rfl, rfl, rfl, rfl, rfl⟩

/-- Settles O30: `WRBITS` that fails has written back some bytes of its span, and each byte is as
the whole store leaves it or as before. -/
theorem wrbitsPortFaultLeavesBytesOldOrNew :
    Obligations.WrbitsPortFaultLeavesBytesOldOrNew := by
  refine ⟨?_, ?_, fun s w => exec_wrbits w s⟩
  · intro d s w hpos _ hr hv
    exact wrbits_err_iff ⟨hpos, hr, hv⟩ d
  · intro d s u w _ _ hio hexec
    obtain ⟨haccepts, land, e⟩ := wrbits_of_ioError hio
    have hstores := stores_storeSome s .ioError land (spanFirst s.off) (s.merged s.off w)
    rw [merged_length] at hstores
    rw [e, mem_of_exec_wrbits_faultFree haccepts hexec]
    refine ⟨completed_complete _ _, keepsOperands_withMem_complete s _ _, rfl, rfl,
      hstores.outside, fun a => ?_⟩
    rw [complete_mem, withMem_mem, State.writtenBack, read_storeSome_eq_ite]
    split
    · exact .inr rfl
    · exact .inl rfl

/-! ### Values wider than the field -/

/-- Without the value check `WRBITS` rejects nothing (R105). -/
theorem not_rejects_of_lax {s : State} (hlax : s.params.strictValue = false) (w : Nat) :
    ¬ s.Rejects w := by
  rintro ⟨hstrict, _⟩
  rw [hlax] at hstrict
  cases hstrict

/-- The merged span depends on the low `w` bits of `DATA` only (R103, R105). -/
theorem merged_withData {s : State} {v : DWord} {w : Nat}
    (h : v.toNat % 2 ^ w = s.data.toNat % 2 ^ w) (off : Nat) :
    (s.withData v).merged off w = s.merged off w := by
  have htrunc : truncTo w v = truncTo w s.data := congrArg (BitVec.ofNat 64) h
  exact congrArg (mergeBuf (s.span off w) (spanShift off) w) htrunc

/-- Without the value check `WRBITS` does the same, under the same draw, for two values alike in
their low `w` bits (R105; log 7). -/
theorem wrbits_withData {s : State} {v : DWord} {w : Nat} (hlax : s.params.strictValue = false)
    (h : v.toNat % 2 ^ w = s.data.toNat % 2 ^ w) (d : PortDraws) :
    wrbits d w (s.withData v) = (wrbits d w s).withData v := by
  have hsame : (s.withData v).Accepts w ↔ s.Accepts w :=
    ⟨fun ⟨hpos, hr, _⟩ => ⟨hpos, hr, not_rejects_of_lax hlax w⟩,
      fun ⟨hpos, hr, _⟩ => ⟨hpos, hr, not_rejects_of_lax (s := s.withData v) hlax w⟩⟩
  by_cases hacc : s.Accepts w
  · rw [wrbits_of_accepts hacc, wrbits_of_accepts (hsame.mpr hacc), State.writtenBack,
      merged_withData h]
    rfl
  · have hcheck : (s.withData v).check (.wrbits w) = s.check (.wrbits w) := by
      simp only [State.check, withData_params, hlax, Bool.false_eq_true, false_and, if_false]
      rfl
    rw [wrbits_of_not_accepts hacc, wrbits_of_not_accepts (mt hsame.mp hacc), hcheck]
    rfl

/-- Settles O28: without the value check the merged span takes the low bits of `DATA` only
(`wrbits_withData`); with it the check follows the bounds. -/
theorem wrbitsTruncatesOrRejectsWideValues : Obligations.WrbitsTruncatesOrRejectsWideValues := by
  refine ⟨?_, ?_, ?_⟩
  · intro s t w _ hlax hexec
    refine ⟨fun hcode => ?_, fun hok i hi => ?_⟩
    · rw [exec_err_eq_iff (c := .valueRange) hexec nofun nofun, check_eq_valueRange_iff] at hcode
      obtain ⟨_, _, _, _, hstrict, _⟩ := hcode
      rw [hlax] at hstrict
      cases hstrict
    · cases hexec
      have hbit := streamBit_store_merged s s.off w (s.off + i)
      rw [if_pos (by omega), Nat.add_sub_cancel_left] at hbit
      have htrunc := getLsbD_truncTo w s.data (w - 1 - i)
      rw [decide_eq_true (by omega), Bool.true_and] at htrunc
      rw [wrbits_of_ok (by omega) hok]
      exact hbit.trans htrunc.symm
  · intro s v w _ hlax hlow
    have hexec := exec_wrbits w (s.withData v)
    rw [wrbits_withData hlax hlow] at hexec
    exact ⟨_, _, exec_wrbits w s, hexec, rfl, fun _ => rfl⟩
  · intro s w hpos hle hstrict hwide
    refine ⟨_, exec_wrbits w s, fun hr => ?_, fun hout => ?_⟩
    · have hcheck := (check_eq_valueRange_iff (.wrbits w) s).mpr
        ⟨w, rfl, hpos, hr, hstrict, by omega, hwide⟩
      rw [wrbits_of_check hcheck nofun]
      exact onlyStatus_complete s .valueRange
    · have hcheck := (check_eq_outOfRange_iff (.wrbits w) s).mpr
        (.inr (.inl ⟨w, rfl, hpos, hout⟩))
      rw [wrbits_of_check hcheck nofun]
      exact onlyStatus_complete s .outOfRange

/-! ### Reads after writes -/

/-- The field of a span written back is the value cut to the field (R110). -/
theorem field_of_writtenBack (s : State) (w : Nat) :
    (s.withMem (s.writtenBack allLand w)).field s.off w = truncTo w s.data := by
  apply BitVec.eq_of_getLsbD_eq
  intro j hj
  rw [getLsbD_field _ _ _ _ hj, getLsbD_truncTo, withMem_mem, State.writtenBack,
    streamBit_store_merged]
  by_cases hjw : j < w
  · have hbit : w - 1 - (s.off + (w - 1 - j) - s.off) = j := by omega
    rw [if_pos (by omega), hbit]
  · rw [decide_eq_false hjw, Bool.false_and, Bool.false_and]

theorem toNat_truncTo (w : Nat) (v : DWord) : (truncTo w v).toNat = v.toNat % 2 ^ w := by
  rw [truncTo, BitVec.toNat_ofNat]
  exact Nat.mod_eq_of_lt ((Nat.mod_le _ _).trans_lt v.isLt)

/-- Settles O34: the write leaves the cut value in the field, and the read returns the field. -/
theorem writeThenReadReturnsTheValue : Obligations.WriteThenReadReturnsTheValue := by
  intro s w hpos _ hport hlax hr
  have hwrite := exec_wrbits w s
  rw [wrbits_of_port ⟨hpos, hr, not_rejects_of_lax hlax w⟩ hport] at hwrite
  refine ⟨_, _, hwrite, exec_rdbits_of_inRange hport hr, rfl, rfl, ?_⟩
  exact (congrArg BitVec.toNat (field_of_writtenBack s w)).trans (toNat_truncTo w s.data)

/-- However `WRBITS` ends, it disturbs no bit outside its field (R106, R107). -/
theorem streamBit_wrbits_outside (d : PortDraws) (s : State) {w p : Nat}
    (hp : p < s.off ∨ s.off + w ≤ p) :
    (wrbits d w s).mem.streamBit p = s.mem.streamBit p := by
  by_cases hacc : s.Accepts w
  · rw [wrbits_of_accepts hacc]
    exact streamBit_storeSome_merged_outside _ s hp
  · rw [wrbits_of_not_accepts hacc, complete_mem]

/-- A field depends on its own bits only (R101). -/
theorem field_congr {s t : State} {off w : Nat}
    (h : ∀ i, i < w → t.mem.streamBit (off + i) = s.mem.streamBit (off + i)) :
    t.field off w = s.field off w := by
  apply BitVec.eq_of_getLsbD_eq
  intro j hj
  rw [getLsbD_field _ _ _ _ hj, getLsbD_field _ _ _ _ hj]
  by_cases hjw : j < w
  · rw [h _ (by omega)]
  · rw [decide_eq_false hjw, Bool.false_and, Bool.false_and]

/-- A field is as it was after a `WRBITS` of a field apart from it, however that ends (R111). -/
theorem field_after_wrbits (d : PortDraws) (s : State) {f wf wg : Nat}
    (h : f + wf ≤ s.off ∨ s.off + wg ≤ f) : (wrbits d wg s).field f wf = s.field f wf :=
  field_congr fun i hi => streamBit_wrbits_outside d s (by omega)

/-- Settles O35: the write leaves the other field, `LEN`, the parameters and `RESULT` as they were
(`field_after_wrbits`, `exec_keepsOperands`), and these are all a read depends on. -/
theorem readsAreIndependentOfOtherFields : Obligations.ReadsAreIndependentOfOtherFields := by
  refine ⟨?_, ?_⟩
  · intro s f g wf wg _ _ _ _ hport hapart
    obtain ⟨u, hexec⟩ := exec_answers_next (.wrbits wg) (s.withOffset g)
    have hkeeps := exec_keepsOperands hexec
    have hresult : u.result = s.result :=
      exec_keeps_result (s := s.withOffset g) hexec (.inl ⟨wg, rfl⟩)
    have hfield : u.field f.toNat wf = s.field f.toNat wf := by
      cases hexec
      exact field_after_wrbits _ (s.withOffset g) hapart
    by_cases hr : f.toNat + wf ≤ 8 * s.len.toNat
    · have huport : u.params.memPortFaults = false := by rw [hkeeps.params]; exact hport
      have hur : f.toNat + wf ≤ 8 * u.len.toNat := by rw [hkeeps.len]; exact hr
      exact ⟨_, u, _, exec_rdbits_withOffset f rfl hport hr, hexec,
        exec_rdbits_withOffset f rfl huport hur, rfl, hfield⟩
    · have hur : ¬ f.toNat + wf ≤ 8 * u.len.toNat := by rw [hkeeps.len]; exact hr
      refine ⟨_, u, _, exec_rdbits _ _, hexec, exec_rdbits _ _, ?_⟩
      rw [rdbits_of_outside (s := s.withOffset f) hr, rdbits_of_outside (s := u.withOffset f) hur]
      exact ⟨rfl, hresult⟩
  · intro d e h s f g wf wg _ _ _ _ hapart hbefore hafter
    rw [rdbits_of_ok hbefore, rdbits_of_ok hafter]
    exact field_after_wrbits e (s.withOffset g) hapart

/-! ### Partial stores -/

/-- With a fault-free memory, a command that makes no store leaves `M` as it was (R59). -/
theorem exec_faultFree_of_no_store {i : Instr} {s u : State} (hstore : s.storeOf i = none)
    (h : exec i s.faultFree = .next u) : SameBytes s u := by
  have hnone : s.faultFree.storeOf i = none := by cases i <;> exact hstore
  rcases exec_cases h with
    ⟨c, rfl⟩ | ⟨v, rfl⟩ | ⟨v, c, rfl⟩ | ⟨v, x, rfl⟩ | ⟨a, bytes, land, c, hsome, rfl⟩
  case inr.inr.inr.inr => rw [hnone] at hsome; cases hsome
  all_goals exact fun _ => rfl

theorem storeOf_wrbits_of_accepts {s : State} {w : Nat} (h : s.Accepts w) :
    s.storeOf (.wrbits w) = some (spanFirst s.off, s.merged s.off w) := by
  obtain ⟨hpos, hr, hv⟩ := h
  refine if_neg fun hor => ?_
  rcases hor with h0 | hout | hrej
  · omega
  · exact hout hr
  · exact hv hrej

theorem storeOf_wrbits_of_not_accepts {s : State} {w : Nat} (h : ¬ s.Accepts w) :
    s.storeOf (.wrbits w) = none := by
  refine if_pos (by_contra fun hor => h ⟨?_, ?_, ?_⟩)
  · exact Nat.one_le_iff_ne_zero.mpr fun h0 => hor (.inl h0)
  · exact by_contra fun hout => hor (.inr (.inl hout))
  · exact fun hrej => hor (.inr (.inr hrej))

theorem storeOf_crcstore_of_slot {s : State} (hslot : s.HasSlot) :
    s.storeOf .crcstore = some (s.slot, bytesOfWord s.dataWord) :=
  if_pos hslot

/-- `CRCSTORE` of a stream with a slot and a port that cannot fail writes the slot (R133). -/
theorem crcstore_of_port {s : State} (hslot : s.HasSlot) (hport : s.params.memPortFaults = false)
    (d : PortDraws) :
    crcstore d s =
      (s.withMem (s.mem.storeSome allLand s.slot 0 (bytesOfWord s.dataWord))).complete .ok := by
  rcases crcstore_cases d s with ⟨hno, _⟩ | ⟨_, hfail, _⟩ | ⟨_, _, e⟩
  · exact absurd hslot hno
  · rw [portFails_of_faultFree hport] at hfail; cases hfail
  · exact e

/-- With a fault-free memory, every byte of the store a command makes lands (R103, R133). -/
theorem exec_faultFree_of_store {i : Instr} {s u : State} {a : Nat} {bytes : List Byte}
    (hstore : s.storeOf i = some (a, bytes)) (h : exec i s.faultFree = .next u) :
    u.mem = s.mem.storeSome allLand a 0 bytes := by
  cases i with
  | wrbits w =>
    by_cases hacc : s.Accepts w
    · rw [storeOf_wrbits_of_accepts hacc] at hstore
      cases hstore
      exact mem_of_exec_wrbits_faultFree hacc h
    · rw [storeOf_wrbits_of_not_accepts hacc] at hstore; cases hstore
  | crcstore =>
    by_cases hslot : s.HasSlot
    · rw [storeOf_crcstore_of_slot hslot] at hstore
      cases hstore
      cases h
      rw [crcstore_of_port (s := s.faultFree) hslot rfl]
      rfl
    · rw [State.storeOf, if_neg hslot] at hstore; cases hstore
  | rdbits | rdu32 | crcinit | crcbyte | crcfinal | crccomp | tblrd => cases hstore

/-- The draw that fails access `n` and no other, and lets those bytes of a store land that `land`
lets land. -/
def drawFailingAt (n : Nat) (land : Nat → Bool) : PortDraws := ⟨fun k => k == n, land, 0⟩

theorem portFails_drawFailingAt {s : State} (hport : s.params.memPortFaults = true) (n : Nat)
    (land : Nat → Bool) (first m : Nat) :
    s.portFails (drawFailingAt n land) first m = true ↔ first ≤ n ∧ n < first + m := by
  rw [portFails_iff]
  simp only [hport, drawFailingAt, beq_iff_eq, true_and]
  exact ⟨fun ⟨k, hk, he⟩ => by omega, fun ⟨hle, hlt⟩ => ⟨n - first, by omega, by omega⟩⟩

/-- A `WRBITS` whose first write fails leaves the bytes of its span as the draw has it (R107,
U2). -/
theorem wrbits_drawFailingAt {s : State} {w : Nat} (h : s.Accepts w)
    (hport : s.params.memPortFaults = true) (land : Nat → Bool) :
    wrbits (drawFailingAt (spanBytes s.off w) land) w s =
      (s.withMem (s.writtenBack land w)).complete .ioError := by
  have hpos : 1 ≤ w := h.1
  have hspan : 1 ≤ spanBytes s.off w := (le_spanBytes_iff _ _ _).mpr (by omega)
  rw [wrbits_of_accepts h, State.landing]
  simp only [portFails_drawFailingAt hport]
  rw [if_neg (by omega), if_pos (by omega), if_pos (by omega)]
  rfl

/-- A `CRCSTORE` whose first write fails leaves the bytes of the slot as the draw has it (R134,
U2). -/
theorem crcstore_drawFailingAt {s : State} (hslot : s.HasSlot)
    (hport : s.params.memPortFaults = true) (land : Nat → Bool) :
    crcstore (drawFailingAt 0 land) s =
      (s.withMem (s.mem.storeSome land s.slot 0 (bytesOfWord s.dataWord))).complete .ioError := by
  have hfails := (portFails_drawFailingAt hport 0 land 0 4).mpr (by omega)
  rcases crcstore_cases (drawFailingAt 0 land) s with ⟨hno, _⟩ | ⟨_, _, e⟩ | ⟨_, hnone, _⟩
  · exact absurd hslot hno
  · exact e
  · rw [hfails] at hnone; cases hnone

/-- A reset while a command that makes no store is pending leaves `M` as it was (R182). -/
theorem abortedMem_of_no_store {s : State} {i : Instr} (hb : s.busy = true)
    (hd : decode s.pend = .ok i) (hstore : s.storeOf i = none) (land : Nat → Bool) :
    s.abortedMem land = s.mem := by
  simp only [State.abortedMem, hb, if_true, hd, hstore]

/-- A reset while a command is pending leaves the bytes of its store that land (R182). -/
theorem abortedMem_of_store {s : State} {i : Instr} {a : Nat} {bytes : List Byte}
    (hb : s.busy = true) (hd : decode s.pend = .ok i) (hstore : s.storeOf i = some (a, bytes))
    (land : Nat → Bool) : s.abortedMem land = s.mem.storeSome land a 0 bytes := by
  simp only [State.abortedMem, hb, if_true, hd, hstore]

/-- Every choice of the bytes a reset leaves new is that of some draw (R182, U2; log 10). -/
theorem exists_abortedMem_eq {s : State} {i : Instr} (hb : s.busy = true)
    (hd : decode s.pend = .ok i) (landAt : Nat → Bool) :
    ∃ land, ∀ u, exec i s.faultFree = .next u → ∀ b,
      (s.abortedMem land).read b = if landAt b then u.mem.read b else s.mem.read b := by
  cases hstore : s.storeOf i with
  | none =>
    refine ⟨allLand, fun u hu b => ?_⟩
    rw [abortedMem_of_no_store hb hd hstore, exec_faultFree_of_no_store hstore hu b, ite_self]
  | some store =>
    obtain ⟨a, bytes⟩ := store
    refine ⟨fun k => landAt (a + k), fun u hu b => ?_⟩
    rw [abortedMem_of_store hb hd hstore, exec_faultFree_of_store hstore hu]
    by_cases hba : a ≤ b
    · rw [read_storeSome_eq_ite, Nat.add_sub_cancel' hba]
    · rw [read_storeSome_outside _ _ _ _ _ (by omega), read_storeSome_outside _ _ _ _ _ (by omega),
        ite_self]

theorem resetRegisters_resetBlock (d : PortDraws) (s : State) : ResetRegisters (resetBlock d s) :=
  ⟨rfl, rfl, rfl, rfl, rfl, rfl, rfl, rfl⟩

/-- Settles O51: the draw that fails the first write and lets the chosen bytes land, and for a reset
the draw alone. -/
theorem everyPartialStoreIsAdmitted : Obligations.EveryPartialStoreIsAdmitted := by
  refine ⟨?_, ?_, ?_, fun s rest hi => step_input hi⟩
  · intro s w land hpos _ hport hr hv
    have hacc : s.Accepts w := ⟨hpos, hr, hv⟩
    refine ⟨drawFailingAt (spanBytes s.off w) land, ?_⟩
    rw [wrbits_drawFailingAt hacc hport]
    refine ⟨rfl, fun u hu k _ => ?_⟩
    rw [mem_of_exec_wrbits_faultFree hacc hu]
    have hbyte := read_storeSome_eq_ite land s.mem (spanFirst s.off) (s.merged s.off w)
      (spanFirst s.off + k)
    rwa [Nat.add_sub_cancel_left] at hbyte
  · intro s land hport hslot
    refine ⟨drawFailingAt 0 land, ?_⟩
    rw [crcstore_drawFailingAt hslot hport]
    refine ⟨rfl, fun u hu k _ => ?_⟩
    rw [exec_faultFree_of_store (storeOf_crcstore_of_slot hslot) hu]
    have hbyte := read_storeSome_eq_ite land s.mem s.slot (bytesOfWord s.dataWord) (s.slot + k)
    rwa [Nat.add_sub_cancel_left] at hbyte
  · intro s i landAt hb hd
    obtain ⟨land, hland⟩ := exists_abortedMem_eq hb hd landAt
    exact ⟨⟨fun _ => false, land, 0⟩, resetRegisters_resetBlock _ s, hland⟩

end Sys2Proof.Machine
end

/-! PROOFS. The checksum engine: the fold of a byte, table-driven and bitwise; then each of its
commands, alone and with a failing memory port; then what a stored checksum and a fold byte by byte
agree on. -/

namespace Sys2Proof.Machine

/-! ### The CRC of a byte and of a sequence -/

/-- A round, with the bit shifted out as a remainder (R120). -/
theorem crcRound_eq (c : Word) :
    crcRound c = if c.toNat % 2 = 1 then 0xEDB88320#32 ^^^ (c >>> 1) else c >>> 1 := by
  have hbit : c.getLsbD 0 = decide (c.toNat % 2 = 1) := by
    rw [← BitVec.testBit_toNat, Nat.testBit_zero]
  simp only [crcRound, crcPoly, hbit, decide_eq_true_eq]

/-- A word is its low byte and the rest. -/
theorem word_eq_low_xor_high (x : Word) :
    x = (x.setWidth 8).setWidth 32 ^^^ (x >>> 8) <<< 8 := by
  apply BitVec.eq_of_getLsbD_eq
  intro j hj
  by_cases h : j < 8
  · simp [hj, h]
  · simp [hj, h, Nat.not_lt.mp h]

/-- Eight rounds of a word: the table entry of its low byte, and the rest shifted down. -/
theorem crcRounds_eight (x : Word) : crcRounds 8 x = crcTable (x.setWidth 8) ^^^ (x >>> 8) := by
  have hlow (j : Nat) (hj : j < 8) : ((x >>> 8) <<< 8).getLsbD j = false := by
    simp [hj]
  have hback : ((x >>> 8) <<< 8) >>> 8 = x >>> 8 := by
    apply BitVec.eq_of_getLsbD_eq
    intro j _
    by_cases h : 8 + j < 32
    · simp [h]
    · simp [h, BitVec.getLsbD_of_ge x (8 + j) (Nat.not_lt.mp h)]
  calc crcRounds 8 x
      = crcRounds 8 ((x.setWidth 8).setWidth 32 ^^^ (x >>> 8) <<< 8) := by
        rw [← word_eq_low_xor_high]
    _ = crcTable (x.setWidth 8) ^^^ (x >>> 8) := by
        rw [crcRounds_xor, crcRounds_shift 8 _ hlow, hback, crcTable]

/-- The table-driven fold of a byte is the bitwise one (R121). -/
theorem crcFold_eq_crcRounds (c : Word) (b : Byte) :
    crcFold c b = crcRounds 8 (c ^^^ b.setWidth 32) := by
  have hshift : (c ^^^ b.setWidth 32) >>> 8 = c >>> 8 := by
    apply BitVec.eq_of_getLsbD_eq
    intro j _
    simp
  rw [crcRounds_eight, hshift, crcFold]

/-- Masking the low eight bits takes the low byte. -/
theorem ofNat_toNat_and_ff (x : Word) : BitVec.ofNat 8 (x &&& 0xFF#32).toNat = x.setWidth 8 := by
  apply BitVec.eq_of_toNat_eq
  rw [BitVec.toNat_and, BitVec.toNat_ofNat, BitVec.toNat_setWidth]
  exact (congrArg (· % 2 ^ 8) (Nat.and_two_pow_sub_one_eq_mod x.toNat 8)).trans (Nat.mod_mod _ _)

/-- Settles O37: eight rounds act on the low byte as the table does and shift the rest
(`crcRounds_eight`), by the linearity of a round. -/
theorem tableFoldIsTheBitwiseFold : Obligations.TableFoldIsTheBitwiseFold := by
  refine ⟨fun _ => rfl, fun k c => ?_, fun _ => rfl, fun c b => ⟨?_, crcFold_eq_crcRounds c b⟩⟩
  · rw [crcRounds, crcRound_eq]
  · rw [ofNat_toNat_and_ff, crcFold]

/-- The running CRC of the stream is that of the bytes before the slot (R131). -/
theorem streamCrc_eq_crcFoldAll_summed (s : State) :
    s.streamCrc = crcFoldAll crcOnes s.summed :=
  streamCrc_eq s

/-- Zero extension to a 64-bit register keeps the value. -/
theorem toNat_zext_word (v : Word) : (v.setWidth 64).toNat = v.toNat :=
  BitVec.toNat_setWidth_of_le (by decide)

/-- The CRC of a stream depends on `LEN` and on the bytes before the slot only (R138). -/
theorem streamCrc_congr {s r : State} (hlen : r.len = s.len)
    (h : ∀ a, a + 4 < s.len.toNat → r.mem.read a = s.mem.read a) : r.streamCrc = s.streamCrc := by
  have hslot : r.slot = s.slot := by rw [State.slot, State.slot, hlen]
  have hspan : r.mem.readSpan 0 s.slot = s.mem.readSpan 0 s.slot :=
    readSpan_congr fun b _ hb => h b (by simp only [State.slot, Config.slotBytes] at hb; omega)
  rw [State.streamCrc, hslot, hspan, State.streamCrc]

/-! ### The commands that make no access of `M` -/

/-- `DATA[7:0]` zero-extended, as a number (R77). -/
theorem dataByte_zext (s : State) :
    s.dataByte.setWidth 32 = BitVec.ofNat 32 (s.data.toNat % 256) := by
  apply BitVec.eq_of_toNat_eq
  simp [State.dataByte, BitVec.toNat_setWidth]

theorem exec_crcinit (s : State) :
    exec .crcinit s = .next ((s.withCrc crcOnes).complete .ok) := rfl

theorem exec_crcbyte (s : State) :
    exec .crcbyte s = .next ((s.withCrc (crcFold s.crc s.dataByte)).complete .ok) := rfl

theorem exec_crcfinal (s : State) :
    exec .crcfinal s = .next (s.returning ((s.crc ^^^ crcOnes).setWidth 64)) := rfl

theorem exec_tblrd (s : State) :
    exec .tblrd s = .next (s.returning ((crcTable s.dataByte).setWidth 64)) := rfl

/-- Settles O38: the command is a write of `CRC` and a completion (`exec_crcinit`). -/
theorem crcinitSetsTheInitialValue : Obligations.CrcinitSetsTheInitialValue := by
  refine ⟨fun s => ?_, oneWord_of_opcode (i := .crcinit) (by decide)⟩
  have hexec := exec_crcinit s
  exact ⟨_, hexec, completed_complete _ _, exec_keepsOperands hexec, fun _ => rfl, rfl, rfl⟩

/-- Settles O40: the command returns the complement, whose value zero extension keeps. -/
theorem crcfinalReturnsTheComplement : Obligations.CrcfinalReturnsTheComplement := by
  refine ⟨fun s => ?_, oneWord_of_opcode (i := .crcfinal) (by decide)⟩
  have hexec := exec_crcfinal s
  exact ⟨_, hexec, completed_returning _ _, exec_keepsOperands hexec, fun _ => rfl, rfl,
    toNat_zext_word _⟩

/-- The value `TBLRD` returns is eight rounds from `DATA[7:0]` (R120, R135). -/
theorem toNat_tblrd_result (s : State) :
    (s.returning ((crcTable s.dataByte).setWidth 64)).result.toNat =
      (crcRounds 8 (BitVec.ofNat 32 (s.data.toNat % 256))).toNat := by
  rw [returning_result, toNat_zext_word, crcTable, dataByte_zext]

/-- The entries of the table that R120 lists, with their indices. -/
def listedEntries : List (Nat × Nat) :=
  [(0x00, 0x00000000), (0x01, 0x77073096), (0x02, 0xEE0E612C), (0x03, 0x990951BA),
    (0x04, 0x076DC419), (0x08, 0x0EDB8832), (0x10, 0x1DB71064), (0x40, 0x76DC4190),
    (0x80, 0xEDB88320), (0xFF, 0x2D02EF8D)]

theorem crcRounds_of_listed :
    ∀ p ∈ listedEntries, (crcRounds 8 (BitVec.ofNat 32 p.1)).toNat = p.2 := by decide

/-- Settles O44: the entry is eight rounds from the index, and the listed ones are computed. -/
theorem tblrdReturnsATableEntry : Obligations.TblrdReturnsATableEntry := by
  refine ⟨fun s => ?_, fun s n v hn hlisted => ?_, oneWord_of_opcode (i := .tblrd) (by decide)⟩
  · have hexec := exec_tblrd s
    exact ⟨_, hexec, completed_returning _ _, exec_keepsOperands hexec, fun _ => rfl, rfl,
      toNat_tblrd_result s⟩
  · refine ⟨_, exec_tblrd s, ?_⟩
    rw [toNat_tblrd_result, hn]
    exact crcRounds_of_listed (n, v) hlisted

/-! ### `CRCCOMP` by its slot and its port -/

/-- What `CRCCOMP` leaves when it completes `OK` (R131). -/
def State.checksummed (s : State) : State :=
  (s.withCrc s.streamCrc).returning ((s.streamCrc ^^^ crcOnes).setWidth 64)

@[simp] theorem checksummed_mem (s : State) : s.checksummed.mem = s.mem := by
  rw [State.checksummed, returning_mem, withCrc_mem]

@[simp] theorem checksummed_len (s : State) : s.checksummed.len = s.len := by
  rw [State.checksummed, returning_len, withCrc_len]

@[simp] theorem checksummed_params (s : State) : s.checksummed.params = s.params := by
  rw [State.checksummed, returning_params, withCrc_params]

@[simp] theorem checksummed_crc (s : State) : s.checksummed.crc = s.streamCrc := rfl

@[simp] theorem checksummed_result (s : State) :
    s.checksummed.result = (s.streamCrc ^^^ crcOnes).setWidth 64 := rfl

/-- The value `CRCCOMP` returns is the CRC-32 of the bytes before the slot (R122, R131). -/
theorem toNat_checksummed_result (s : State) :
    s.checksummed.result.toNat = (crc32 s.summed).toNat := by
  rw [checksummed_result, toNat_zext_word, streamCrc_eq_crcFoldAll_summed, crc32]

theorem exec_crccomp (s : State) :
    exec .crccomp s = .next (crccomp (Config.portDraws s.draws) s) := rfl

theorem crccomp_of_port {s : State} (hslot : s.HasSlot) (hport : s.params.memPortFaults = false)
    (d : PortDraws) : crccomp d s = s.checksummed := by
  rcases crccomp_cases d s with ⟨hno, _⟩ | ⟨_, hfail, _⟩ | ⟨_, _, e⟩
  · exact absurd hslot hno
  · rw [portFails_of_faultFree hport] at hfail; cases hfail
  · exact e

/-- `CRCCOMP` of a stream with a slot and a port that cannot fail (R131). -/
theorem exec_crccomp_of_port {s : State} (hslot : s.HasSlot)
    (hport : s.params.memPortFaults = false) : exec .crccomp s = .next s.checksummed := by
  rw [exec_crccomp, crccomp_of_port hslot hport]

theorem crccomp_of_ok {d : PortDraws} {s : State} (h : (crccomp d s).err = .ok) :
    crccomp d s = s.checksummed := by
  rcases crccomp_cases d s with ⟨_, e⟩ | ⟨_, _, e⟩ | ⟨_, _, e⟩
  · rw [e] at h; cases h
  · rw [e] at h; cases h
  · exact e

theorem crccomp_of_ioError {d : PortDraws} {s : State} (h : (crccomp d s).err = .ioError) :
    crccomp d s = (s.withCrc d.crc).complete .ioError := by
  rcases crccomp_cases d s with ⟨_, e⟩ | ⟨_, _, e⟩ | ⟨_, _, e⟩
  · rw [e] at h; cases h
  · exact e
  · rw [e] at h; cases h

/-- `CRCCOMP` fails exactly where one of its reads does (R132, R152). -/
theorem crccomp_err_iff {s : State} (hslot : s.HasSlot) (d : PortDraws) :
    (crccomp d s).err = .ioError ↔ s.portFails d 0 s.slot = true := by
  rcases crccomp_cases d s with ⟨hno, _⟩ | ⟨_, hfail, e⟩ | ⟨_, hnone, e⟩
  · exact absurd hslot hno
  · rw [e, hfail]; exact iff_of_true rfl rfl
  · rw [e, hnone]; exact iff_of_false nofun nofun

theorem keepsOperands_withCrc_complete (s : State) (v : Word) (c : Status) :
    KeepsOperands s ((s.withCrc v).complete c) :=
  ⟨rfl, rfl, rfl, rfl, rfl, rfl, rfl⟩

/-! ### `CRCSTORE` by its slot and its port -/

/-- `M` with `DATA[31:0]` written into the slot as far as `land` lets it land (R133, R134). -/
def State.slotWritten (s : State) (land : Nat → Bool) : Memory :=
  s.mem.storeSome land s.slot 0 (bytesOfWord s.dataWord)

theorem exec_crcstore (s : State) :
    exec .crcstore s = .next (crcstore (Config.portDraws s.draws) s) := rfl

/-- `CRCSTORE` of a stream with a slot and a port that cannot fail (R133). -/
theorem exec_crcstore_of_port {s : State} (hslot : s.HasSlot)
    (hport : s.params.memPortFaults = false) :
    exec .crcstore s = .next ((s.withMem (s.slotWritten allLand)).complete .ok) := by
  rw [exec_crcstore, crcstore_of_port hslot hport, State.slotWritten]

theorem crcstore_of_no_slot {s : State} (h : ¬ s.HasSlot) (d : PortDraws) :
    crcstore d s = s.complete .tooSmall :=
  if_neg h

theorem crcstore_of_ioError {d : PortDraws} {s : State} (h : (crcstore d s).err = .ioError) :
    s.HasSlot ∧ crcstore d s = (s.withMem (s.slotWritten d.landed)).complete .ioError := by
  rcases crcstore_cases d s with ⟨_, e⟩ | ⟨hslot, _, e⟩ | ⟨_, _, e⟩
  · rw [e] at h; cases h
  · exact ⟨hslot, e⟩
  · rw [e] at h; cases h

/-- `CRCSTORE` fails exactly where one of its writes does (R134, R152). -/
theorem crcstore_err_iff {s : State} (hslot : s.HasSlot) (d : PortDraws) :
    (crcstore d s).err = .ioError ↔ s.portFails d 0 4 = true := by
  rcases crcstore_cases d s with ⟨hno, _⟩ | ⟨_, hfail, e⟩ | ⟨_, hnone, e⟩
  · exact absurd hslot hno
  · rw [e, hfail]; exact iff_of_true rfl rfl
  · rw [e, hnone]; exact iff_of_false nofun nofun

/-- With the port that can fail, `CRCSTORE` fails or does what it does with the one that cannot. -/
theorem crcstore_fails_or_as_faultFree {s : State} (hslot : s.HasSlot) (d e : PortDraws) :
    Completed (crcstore d s) .ioError ∨
      crcstore e s.faultFree = { crcstore d s with params := s.faultFree.params } := by
  rcases crcstore_cases d s with ⟨hno, _⟩ | ⟨_, _, hfailed⟩ | ⟨_, _, hstored⟩
  · exact absurd hslot hno
  · rw [hfailed]; exact .inl (completed_complete _ _)
  · rw [hstored, crcstore_of_port (s := s.faultFree) hslot rfl]; exact .inr rfl

/-! ### The bytes of the slot -/

/-- Byte `k` of a word, the most significant first (R51). -/
theorem bytesOfWord_getD (v : Word) {k : Nat} (hk : k < 4) :
    (bytesOfWord v).getD k 0#8 = v.extractLsb' (8 * (3 - k)) 8 := by
  match k, hk with
  | 0, _ | 1, _ | 2, _ | 3, _ => rfl

theorem read_slotWritten (s : State) {k : Nat} (hk : k < 4) :
    (s.slotWritten allLand).read (s.slot + k) = s.dataWord.extractLsb' (8 * (3 - k)) 8 := by
  rw [State.slotWritten, read_storeSome_inside _ _ _ _ _ hk, ← bytesOfWord_getD _ hk]
  rfl

/-- Byte `k` of the slot is that digit of `DATA[31:0]` in base 256 (R133). -/
theorem toNat_read_slotWritten (s : State) {k : Nat} (hk : k < 4) :
    ((s.slotWritten allLand).read (s.slot + k)).toNat =
      s.data.toNat / 2 ^ (8 * (3 - k)) % 256 := by
  rw [read_slotWritten s hk, State.dataWord, BitVec.extractLsb'_toNat, BitVec.toNat_setWidth,
    Nat.shiftRight_eq_div_pow]
  match k, hk with
  | 0, _ | 1, _ | 2, _ | 3, _ => omega

/-- The four bytes of a word read back as the word (R51). -/
theorem wordOfBytes_of_extracts (v : Word) :
    wordOfBytes (v.extractLsb' 24 8) (v.extractLsb' 16 8) (v.extractLsb' 8 8) (v.extractLsb' 0 8) =
      v.setWidth 64 := by
  apply BitVec.eq_of_toNat_eq
  have hv := v.isLt
  simp only [toNat_wordOfBytes, toNat_zext_word, BitVec.extractLsb'_toNat,
    Nat.shiftRight_eq_div_pow]
  omega

/-- The slot's bytes as `RDU32` puts them together (R108, R133). -/
theorem wordOfBytes_slotWritten (s : State) :
    wordOfBytes ((s.slotWritten allLand).read s.slot) ((s.slotWritten allLand).read (s.slot + 1))
      ((s.slotWritten allLand).read (s.slot + 2)) ((s.slotWritten allLand).read (s.slot + 3)) =
      s.dataWord.setWidth 64 := by
  rw [show (s.slotWritten allLand).read s.slot = _ from read_slotWritten s (k := 0) (by decide),
    read_slotWritten s (by decide), read_slotWritten s (by decide),
    read_slotWritten s (by decide)]
  exact wordOfBytes_of_extracts s.dataWord

/-- Settles O42: the digits of the slot by `toNat_read_slotWritten`, the frame by what every store
leaves alone. -/
theorem crcstoreWritesTheSlotBigEndian : Obligations.CrcstoreWritesTheSlotBigEndian := by
  refine ⟨?_, ?_, ?_, oneWord_of_opcode (i := .crcstore) (by decide)⟩
  · intro s hport hslot
    have hexec := exec_crcstore_of_port hslot hport
    have hwrites : Stores s _ s.slot 4 := exec_writes hexec
    have haddr (k : Nat) (hk : k ≤ 4) : s.len.toNat - k = s.slot + (4 - k) := by
      unfold State.slot Config.slotBytes; omega
    refine ⟨_, hexec, completed_complete _ _, exec_keepsOperands hexec, hwrites.result,
      hwrites.crc, hwrites.outside, ?_, ?_, ?_, ?_⟩
    · exact toNat_read_slotWritten s (k := 0) (by decide)
    · rw [haddr 3 (by decide)]; exact toNat_read_slotWritten s (k := 1) (by decide)
    · rw [haddr 2 (by decide)]; exact toNat_read_slotWritten s (k := 2) (by decide)
    · rw [haddr 1 (by decide)]
      exact (toNat_read_slotWritten s (k := 3) (by decide)).trans (by simp)
  · intro s hsmall
    rw [exec_crcstore, crcstore_of_no_slot (Nat.not_le.mpr hsmall)]
    exact ⟨_, rfl, onlyStatus_complete s .tooSmall⟩
  · intro s hslot
    exact ⟨_, exec_crcstore s, (crcstore_fails_or_as_faultFree hslot _ _).imp_right (congrArg _)⟩

/-! ### A failing memory port -/

/-- An access of the first `n` fails (R152). -/
theorem portFails_zero_iff (s : State) (d : PortDraws) (n : Nat) :
    s.portFails d 0 n = true ↔
      s.params.memPortFaults = true ∧ ∃ k, k < n ∧ d.fails k = true := by
  simpa only [Nat.zero_add] using portFails_iff s d 0 n

/-- Settles O43: each command fails exactly where the draw fails one of its accesses, and the form
of its failure (`crccomp_of_ioError`, `crcstore_of_ioError`) shows what it has written. -/
theorem checksumPortFaults : Obligations.ChecksumPortFaults := by
  refine ⟨?_, ?_, ?_, fun s => ⟨exec_crccomp s, exec_crcstore s⟩⟩
  · intro d s hslot
    have hbefore (k : Nat) : k < s.slot ↔ k + 4 < s.len.toNat := by
      unfold State.slot Config.slotBytes; omega
    rw [crccomp_err_iff hslot, crcstore_err_iff hslot, portFails_zero_iff, portFails_zero_iff]
    simp only [hbefore, and_self]
  · intro d s hio
    rw [crccomp_of_ioError hio]
    exact ⟨completed_complete _ _, keepsOperands_withCrc_complete s _ _, rfl, fun _ => rfl, rfl⟩
  · intro d s u hio hexec
    obtain ⟨hslot, e⟩ := crcstore_of_ioError hio
    have hstores : Stores s _ s.slot 4 :=
      stores_storeSome s .ioError d.landed s.slot (bytesOfWord s.dataWord)
    rw [e, exec_faultFree_of_store (storeOf_crcstore_of_slot hslot) hexec]
    refine ⟨completed_complete _ _, keepsOperands_withMem_complete s _ _, rfl, rfl,
      hstores.outside, fun a => ?_⟩
    rw [complete_mem, withMem_mem, State.slotWritten, read_storeSome_eq_ite]
    split
    · exact .inr rfl
    · exact .inl rfl

/-! ### Agreement of the commands -/

/-- `CRCBYTE` for each byte of a list folds the list into `CRC` (R127, R136). -/
theorem foldCommands_folds (bytes : List Byte) (s : State) :
    ∃ t, foldCommands bytes s = .next t ∧ t.crc = crcFoldAll s.crc bytes := by
  induction bytes generalizing s with
  | nil => exact ⟨s, rfl, rfl⟩
  | cons b rest ih =>
    have hbyte : (s.withData (b.setWidth 64)).dataByte = b := by simp [State.dataByte]
    obtain ⟨t, ht, hcrc⟩ :=
      ih (((s.withData (b.setWidth 64)).withCrc (crcFold s.crc b)).complete .ok)
    refine ⟨t, ?_, hcrc⟩
    rw [foldCommands, exec_crcbyte, hbyte]
    exact ht

/-- Settles O45: both ways end with the fold of the bytes before the slot in `CRC`. -/
theorem foldingByCommandsIsCrccomp : Obligations.FoldingByCommandsIsCrccomp := by
  intro s hport hslot
  obtain ⟨u, hfold, hcrc⟩ := foldCommands_folds s.summed ((s.withCrc crcOnes).complete .ok)
  have hsame : u.crc = s.streamCrc := hcrc.trans (streamCrc_eq_crcFoldAll_summed s).symm
  have hresult : (u.crc ^^^ crcOnes).setWidth 64 = s.checksummed.result := by
    rw [hsame, checksummed_result]
  exact ⟨_, u, _, _, exec_crcinit s, hfold, exec_crcfinal u, exec_crccomp_of_port hslot hport,
    hsame, hresult, (congrArg BitVec.toNat hresult).trans (toNat_checksummed_result s)⟩

/-- Settles O47: what a completed `CRCCOMP` leaves is the CRC of the stream, which the slot is no
part of (`streamCrc_congr`). -/
theorem crccompIgnoresTheSlot : Obligations.CrccompIgnoresTheSlot := by
  have hagree {s r : State} (hcrc : r.streamCrc = s.streamCrc) :
      r.checksummed.result = s.checksummed.result ∧ r.checksummed.crc = s.checksummed.crc := by
    rw [checksummed_result, checksummed_crc, hcrc]; exact ⟨rfl, rfl⟩
  refine ⟨?_, ?_⟩
  · intro s r hs hr hslot hlen hbytes
    have hslot' : r.HasSlot := by rw [State.HasSlot, hlen]; exact hslot
    exact ⟨_, _, exec_crccomp_of_port hslot hs, exec_crccomp_of_port hslot' hr, rfl, rfl,
      hagree (streamCrc_congr hlen hbytes)⟩
  · intro d e s r hlen hbytes hd he
    rw [crccomp_of_ok hd, crccomp_of_ok he]
    exact hagree (streamCrc_congr hlen hbytes)

/-- The state between `CRCCOMP` and `CRCSTORE`, once the host has copied `RESULT[31:0]` into `DATA`
(R137). -/
def State.copied (s : State) : State :=
  s.checksummed.withData ((s.checksummed.result.setWidth 32).setWidth 64)

@[simp] theorem copied_mem (s : State) : s.copied.mem = s.mem := by
  rw [State.copied, withData_mem, checksummed_mem]

@[simp] theorem copied_len (s : State) : s.copied.len = s.len := by
  rw [State.copied, withData_len, checksummed_len]

@[simp] theorem copied_params (s : State) : s.copied.params = s.params := by
  rw [State.copied, withData_params, checksummed_params]

@[simp] theorem copied_slot (s : State) : s.copied.slot = s.slot := by
  rw [State.slot, copied_len, State.slot]

/-- The word the copy leaves for `CRCSTORE` is the one `CRCCOMP` returned (R137). -/
theorem dataWord_copied (s : State) : s.copied.dataWord = s.streamCrc ^^^ crcOnes := by
  simp [State.copied, State.dataWord]

/-- The state once `CRCSTORE` has stored the copy (R137). -/
def State.stored (s : State) : State :=
  (s.copied.withMem (s.copied.slotWritten allLand)).complete .ok

@[simp] theorem stored_mem (s : State) : s.stored.mem = s.copied.slotWritten allLand := by
  rw [State.stored, complete_mem, withMem_mem]

@[simp] theorem stored_len (s : State) : s.stored.len = s.len := by
  rw [State.stored, complete_len, withMem_len, copied_len]

@[simp] theorem stored_params (s : State) : s.stored.params = s.params := by
  rw [State.stored, complete_params, withMem_params, copied_params]

/-- Storing the checksum does not change the checksum (R138). -/
theorem streamCrc_stored (s : State) : s.stored.streamCrc = s.streamCrc := by
  refine streamCrc_congr (stored_len s) fun a ha => ?_
  have hbefore : a < s.copied.slot := by
    rw [copied_slot]; unfold State.slot Config.slotBytes; omega
  rw [stored_mem, State.slotWritten, read_storeSome_outside _ _ _ _ _ (.inl hbefore), copied_mem]

/-- `RDU32` of the slot returns what has been stored there (R108, R137). -/
theorem exec_rdu32_stored {s : State} {o : Word} (hport : s.params.memPortFaults = false)
    (hslot : s.HasSlot) (ho : o.toNat = s.slot) :
    exec .rdu32 (s.stored.withOffset o) =
      .next ((s.stored.withOffset o).returning s.checksummed.result) := by
  have hin : (s.stored.withOffset o).offset.toNat + 4 ≤ (s.stored.withOffset o).len.toNat := by
    rw [withOffset_offset, withOffset_len, stored_len, ho]
    unfold State.slot State.HasSlot Config.slotBytes at *
    omega
  have hport' : (s.stored.withOffset o).params.memPortFaults = false := by
    rw [withOffset_params, stored_params, hport]
  have hoff : (s.stored.withOffset o).off = s.copied.slot := by
    rw [State.off, withOffset_offset, ho, copied_slot]
  rw [exec_rdu32, rdu32_of_inRange hin, reading_of_port hport', hoff, withOffset_mem, stored_mem,
    wordOfBytes_slotWritten, dataWord_copied, checksummed_result]

/-- Settles O46: the slot holds the word `CRCCOMP` returned (`exec_rdu32_stored`), and the store
leaves the bytes before it alone (`streamCrc_stored`). -/
theorem storedChecksumIsConsistent : Obligations.StoredChecksumIsConsistent := by
  intro s o hport hslot ho
  have hcopied : s.copied.HasSlot := by rwa [State.HasSlot, copied_len]
  have hstored : s.stored.HasSlot := by rwa [State.HasSlot, stored_len]
  have hcopiedPort : s.copied.params.memPortFaults = false := by rwa [copied_params]
  have hstoredPort : s.stored.params.memPortFaults = false := by rwa [stored_params]
  have hagain : s.stored.checksummed.result = s.checksummed.result := by
    rw [checksummed_result, streamCrc_stored, checksummed_result]
  exact ⟨s.checksummed, s.stored, _, s.stored.checksummed, exec_crccomp_of_port hslot hport,
    exec_crcstore_of_port hcopied hcopiedPort, exec_rdu32_stored hport hslot ho,
    exec_crccomp_of_port hstored hstoredPort, rfl, rfl, rfl, rfl, toNat_checksummed_result s, rfl,
    hagain⟩

end Sys2Proof.Machine

/-! PROOFS. The error conditions: a check that does not pass ends its command before anything else
can happen, and from that their order, their precision and the codes on the empty stream. -/

namespace Sys2Proof.Machine

/-! ### A check that does not pass -/

/-- A command that one of its checks ends completes at once with the code of that check, whatever
the memory port would have done (R153, R156). -/
theorem exec_of_check {i : Instr} {s : State} {c : Status} (hcheck : s.check i = c) (hc : c ≠ .ok) :
    exec i s = .next (s.complete c) := by
  subst hcheck
  cases i with
  | rdbits w =>
    have hout : ¬ s.InRange s.off w := fun hr => hc (if_pos hr)
    rw [exec_rdbits, rdbits_of_outside hout, State.check, if_neg hout]
  | wrbits w => rw [exec_wrbits, wrbits_of_check rfl hc]
  | rdu32 =>
    have hout : ¬ s.InRange (8 * s.off) 32 := fun hr => hc (if_pos hr)
    rw [exec_rdu32, rdu32, if_neg hout, State.check, if_neg hout]
  | crccomp =>
    have hslot : ¬ s.HasSlot := fun hs => hc (if_pos hs)
    rw [exec_crccomp, crccomp, if_neg hslot, State.check, if_neg hslot]
  | crcstore =>
    have hslot : ¬ s.HasSlot := fun hs => hc (if_pos hs)
    rw [exec_crcstore, crcstore_of_no_slot hslot, State.check, if_neg hslot]
  | crcinit | crcbyte | crcfinal | tblrd => exact absurd rfl hc

/-- A command that makes no access of `M` has no check to pass and completes with `OK` (R150). -/
theorem exec_err_of_noAccess {i : Instr} {s t : State} (h : exec i s = .next t) (hi : NoAccess i) :
    t.err = .ok := by
  rcases exec_err_cases h with herr | ⟨_, _, _, haccess⟩
  · rw [herr]
    rcases hi with rfl | rfl | rfl | rfl | rfl <;> rfl
  · exact absurd hi haccess

/-! ### The order of the error conditions -/

/-- Settles O49: an illegal word ends before any command, and the first check that does not pass
ends its command before any access of `M` (`exec_of_check`). -/
theorem errorsAreReportedInOrder : Obligations.ErrorsAreReportedInOrder := by
  refine ⟨?_, ?_, ?_, ?_, ?_⟩
  · intro s rest hb hbits hi
    obtain ⟨e, hd⟩ := decode_of_illegalBits hbits
    obtain ⟨t, hstep, hdone⟩ := step_block_of_illegal hb hd hi
    exact ⟨t, hstep, hdone.err⟩
  · intro s w hpos _ hout
    have hread := (check_eq_outOfRange_iff (.rdbits w) s).mpr (.inl ⟨w, rfl, hout⟩)
    have hwrite := (check_eq_outOfRange_iff (.wrbits w) s).mpr (.inr (.inl ⟨w, rfl, hpos, hout⟩))
    exact ⟨_, _, exec_of_check hread nofun, rfl, exec_of_check hwrite nofun, rfl⟩
  · intro s hout
    have hread := (check_eq_outOfRange_iff .rdu32 s).mpr (.inr (.inr ⟨rfl, hout⟩))
    exact ⟨_, exec_of_check hread nofun, rfl⟩
  · intro s hsmall
    have hcomp := (check_eq_tooSmall_iff .crccomp s).mpr ⟨.inl rfl, hsmall⟩
    have hstore := (check_eq_tooSmall_iff .crcstore s).mpr ⟨.inr rfl, hsmall⟩
    exact ⟨_, _, exec_of_check hcomp nofun, rfl, exec_of_check hstore nofun, rfl⟩
  · intro s w hpos _ hin hrejects
    have hvalue := (check_eq_valueRange_iff (.wrbits w) s).mpr ⟨w, rfl, hpos, hin, hrejects⟩
    exact ⟨_, exec_of_check hvalue nofun, rfl⟩

/-! ### Errors are precise -/

/-- Settles O50: the three codes come from a check alone (`exec_err_eq_iff`), and a check that ends
a command only completes it (`exec_of_check`). -/
theorem checkedErrorsArePrecise : Obligations.CheckedErrorsArePrecise := by
  intro i s t c h herr hcode
  have hok : c ≠ .ok := by rintro rfl; simp at hcode
  have hio : c ≠ .ioError := by rintro rfl; simp at hcode
  have hend := exec_of_check ((exec_err_eq_iff h hok hio).mp herr) hok
  obtain rfl : t = s.complete c := Host.Outcome.next.inj (h.symm.trans hend)
  exact onlyStatus_complete s c

/-! ### The empty stream -/

/-- Settles O54: with `LEN = 0` no field of some width lies in the stream and there is no slot, so
these checks do not pass; the other commands make no access of `M`. -/
theorem commandsOnTheEmptyStream : Obligations.CommandsOnTheEmptyStream := by
  intro i s hwf hempty
  have hlen : s.len.toNat = 0 := by rw [hempty]; rfl
  obtain ⟨t, h⟩ := exec_answers_next i s
  obtain ⟨hbusy, hdone, _⟩ := exec_completes h
  refine ⟨t, h, hbusy, hdone, ?_, ?_, ?_, exec_err_of_noAccess h⟩
  · intro w hi
    rw [exec_err_eq_iff (c := .outOfRange) h nofun nofun, check_eq_outOfRange_iff]
    rcases hi with rfl | ⟨rfl, hw⟩
    · have hpos := ((wellFormed_rdbits w).mp hwf).1
      exact .inl ⟨w, rfl, by omega⟩
    · exact .inr (.inl ⟨w, rfl, by omega, by omega⟩)
  · intro hi
    rw [exec_err_eq_iff (c := .outOfRange) h nofun nofun, check_eq_outOfRange_iff]
    exact .inr (.inr ⟨hi, by omega⟩)
  · intro hi
    rw [exec_err_eq_iff (c := .tooSmall) h nofun nofun, check_eq_tooSmall_iff]
    exact ⟨hi, by omega⟩

end Sys2Proof.Machine

/-! PROOFS. Reset: the registers and the world around the block after it, then what an abort leaves in
`M`, by whether the pending word is no command, a command that stores nothing, or one that stores. -/

namespace Sys2Proof.Machine

/-! ### The state after a reset -/

theorem resetRegisters_powerOn (p : Params) (m : Memory) : ResetRegisters (State.powerOn p m) :=
  ⟨rfl, rfl, rfl, rfl, rfl, rfl, rfl, rfl⟩

@[simp] theorem resetBlock_mem (d : PortDraws) (s : State) :
    (resetBlock d s).mem = s.abortedMem d.landed := rfl

@[simp] theorem resetBlock_params (d : PortDraws) (s : State) :
    (resetBlock d s).params = s.params := rfl

@[simp] theorem resetBlock_inputs (d : PortDraws) (s : State) :
    (resetBlock d s).inputs = s.inputs := rfl

/-- The step in which the platform asserts reset (R180). -/
theorem step_reset {s : State} {rest : List Input} (hi : s.inputs = .reset :: rest) :
    step s = .next (resetBlock (Config.portDraws s.draws) (s.withInputs rest)) :=
  step_input hi

/-- Settles O1: power-on and a reset set the same registers, and a block with those is idle, so it
issues (`step_issue`). -/
theorem resetGivesEveryRegisterItsValue : Obligations.ResetGivesEveryRegisterItsValue := by
  refine ⟨resetRegisters_powerOn, ?_, ?_⟩
  · intro s rest hi
    exact ⟨_, step_reset hi, resetRegisters_resetBlock _ _, resetBlock_inputs _ _,
      resetBlock_params _ _⟩
  · intro s w rest hreset hi
    obtain ⟨t, hstep, hbusy, hpend, _, hrest⟩ := step_issue hreset.busy hi
    exact ⟨t, hstep, hbusy, hpend, hrest⟩

/-! ### The memory an abort leaves -/

/-- What an abort leaves in `M` does not depend on what the outside world does next. -/
@[simp] theorem abortedMem_withInputs (s : State) (l : List Input) (land : Nat → Bool) :
    (s.withInputs l).abortedMem land = s.abortedMem land := rfl

/-- An idle block has nothing to abort (R181). -/
theorem abortedMem_of_idle {s : State} (hb : s.busy = false) (land : Nat → Bool) :
    s.abortedMem land = s.mem := by
  rw [State.abortedMem, hb, if_neg Bool.false_ne_true]

/-- A pending illegal word would write no byte (R78, R182). -/
theorem abortedMem_of_illegal {s : State} {e : IllegalWord} (hb : s.busy = true)
    (hd : decode s.pend = .error e) (land : Nat → Bool) : s.abortedMem land = s.mem := by
  simp only [State.abortedMem, hb, if_true, hd]

/-- Only `WRBITS` and `CRCSTORE` store (R59, R182). -/
theorem storeOf_eq_none {i : Instr} (hwr : ∀ w, i ≠ .wrbits w) (hst : i ≠ .crcstore) (s : State) :
    s.storeOf i = none := by
  cases i with
  | wrbits w => exact absurd rfl (hwr w)
  | crcstore => exact absurd rfl hst
  | rdbits | rdu32 | crcinit | crcbyte | crcfinal | crccomp | tblrd => rfl

/-- A reset while another word than a `WRBITS` or a `CRCSTORE` is pending leaves `M` as it was
(R182). -/
theorem abortedMem_of_no_writer {s : State} (hb : s.busy = true)
    (hwr : ∀ w, decode s.pend ≠ .ok (.wrbits w)) (hst : decode s.pend ≠ .ok .crcstore)
    (land : Nat → Bool) : s.abortedMem land = s.mem := by
  cases hd : decode s.pend with
  | error e => exact abortedMem_of_illegal hb hd land
  | ok i =>
    have hnone : s.storeOf i = none :=
      storeOf_eq_none (fun w h => hwr w (h ▸ hd)) (fun h => hst (h ▸ hd)) s
    exact abortedMem_of_no_store hb hd hnone land

/-- Each byte after an abort is the old one or the one the completed command would have left
(R182, U2). -/
theorem read_abortedMem_old_or_new {s u : State} {i : Instr} (hb : s.busy = true)
    (hd : decode s.pend = .ok i) (hu : exec i s.faultFree = .next u) (land : Nat → Bool) (a : Nat) :
    (s.abortedMem land).read a = s.mem.read a ∨ (s.abortedMem land).read a = u.mem.read a := by
  cases hstore : s.storeOf i with
  | none => exact .inl (by rw [abortedMem_of_no_store hb hd hstore])
  | some store =>
    obtain ⟨first, bytes⟩ := store
    rw [abortedMem_of_store hb hd hstore, exec_faultFree_of_store hstore hu, read_storeSome_eq_ite]
    exact (ite_eq_or_eq _ _ _).symm

/-- Settles O3: an idle block has nothing to abort. -/
theorem idleResetKeepsMemory : Obligations.IdleResetKeepsMemory := by
  intro s rest hb hi
  refine ⟨_, step_reset hi, ?_, resetBlock_params _ _⟩
  rw [resetBlock_mem, abortedMem_withInputs, abortedMem_of_idle hb]

/-- Settles O2: the step is the reset at the next draw, and every draw leaves each byte old or new. -/
theorem resetAbortsThePendingCommand : Obligations.ResetAbortsThePendingCommand := by
  intro s rest hb hi
  refine ⟨_, step_reset hi, resetRegisters_resetBlock _ _, ?_, ?_⟩
  · intro i u hd hu a
    rw [resetBlock_mem, abortedMem_withInputs]
    exact read_abortedMem_old_or_new hb hd hu _ a
  · intro hwr hst a
    rw [resetBlock_mem, abortedMem_withInputs, abortedMem_of_no_writer hb hwr hst]

end Sys2Proof.Machine

/-! PROOFS. The two commands that fold: `CRCBYTE` one byte, `CRCCOMP` the stream without its slot; each
is the table-driven fold of the model, and so the bitwise one (`crcFold_eq_crcRounds`). -/

namespace Sys2Proof.Machine

/-- Folding a sequence by the table is folding it by eight rounds a byte (R121, R122). -/
theorem crcFoldAll_eq_foldl_crcRounds (c : Word) (bytes : List Byte) :
    crcFoldAll c bytes = bytes.foldl (fun c b => crcRounds 8 (c ^^^ b.setWidth 32)) c :=
  congrArg (fun fold => bytes.foldl fold c)
    (funext fun c => funext fun b => crcFold_eq_crcRounds c b)

/-- Settles O39: the command folds `DATA[7:0]` (`exec_crcbyte`), whose zero extension is the
remainder of `DATA` by 256 (`dataByte_zext`). -/
theorem crcbyteFoldsTheLowByteOfData : Obligations.CrcbyteFoldsTheLowByteOfData := by
  refine ⟨fun s => ?_, oneWord_of_opcode (i := .crcbyte) (by decide)⟩
  have hexec := exec_crcbyte s
  have hcrc : crcFold s.crc s.dataByte =
      crcRounds 8 (s.crc ^^^ BitVec.ofNat 32 (s.data.toNat % 256)) := by
    rw [crcFold_eq_crcRounds, dataByte_zext]
  exact ⟨_, hexec, completed_complete _ _, exec_keepsOperands hexec, fun _ => rfl, rfl, hcrc⟩

/-- With the port that can fail, `CRCCOMP` fails with `RESULT` and `M` as they were, or does what it
does with the one that cannot (R131, R132). -/
theorem crccomp_fails_or_as_faultFree {s : State} (hslot : s.HasSlot) (d e : PortDraws) :
    (Completed (crccomp d s) .ioError ∧ KeepsOperands s (crccomp d s) ∧
        SameBytes s (crccomp d s) ∧ (crccomp d s).result = s.result) ∨
      crccomp e s.faultFree = { crccomp d s with params := s.faultFree.params } := by
  rcases crccomp_cases d s with ⟨hno, _⟩ | ⟨_, _, hfailed⟩ | ⟨_, _, hsummed⟩
  · exact absurd hslot hno
  · rw [hfailed]
    exact .inl ⟨completed_complete _ _, keepsOperands_withCrc_complete s _ _, fun _ => rfl, rfl⟩
  · rw [hsummed, crccomp_of_port (s := s.faultFree) hslot rfl]; exact .inr rfl

/-- Settles O41: `CRCCOMP` leaves the state `checksummed` with a slot and a port that cannot fail,
ends at its check without a slot, and fails or does the first with any port. -/
theorem crccompSumsTheStreamWithoutItsSlot :
    Obligations.CrccompSumsTheStreamWithoutItsSlot := by
  refine ⟨?_, ?_, ?_, oneWord_of_opcode (i := .crccomp) (by decide)⟩
  · intro s hport hslot
    have hexec := exec_crccomp_of_port hslot hport
    have hcrc := (streamCrc_eq_crcFoldAll_summed s).trans (crcFoldAll_eq_foldl_crcRounds _ _)
    exact ⟨_, hexec, completed_returning _ _, exec_keepsOperands hexec, fun _ => rfl, hcrc,
      toNat_zext_word _⟩
  · intro s hsmall
    have hcheck := (check_eq_tooSmall_iff .crccomp s).mpr ⟨.inl rfl, hsmall⟩
    exact ⟨_, exec_of_check hcheck nofun, onlyStatus_complete s .tooSmall⟩
  · intro s hslot
    exact ⟨_, exec_crccomp s, (crccomp_fails_or_as_faultFree hslot _ _).imp_right (congrArg _)⟩

end Sys2Proof.Machine
